-- ==== Sys2Proof/Word.lean ====
section
/-!
DEFINITION. The widths of the machine: byte, instruction word, index address, register name.
Spec: 00_scope.md section 5 (names and widths), 10_state.md R10, R13, R14.
-/

namespace Sys2Proof

/-- An 8-bit value: a general register, a timer, a memory byte (R10, R18, R20). -/
abbrev Byte := BitVec 8

/-- A 16-bit value: an instruction word, `IR`, `PC`, a stack slot (R14, R16, R23, R65). -/
abbrev Word := BitVec 16

/-- A 12-bit address: `I`, and the field `nnn` (R13, R74). -/
abbrev Addr := BitVec 12

/-- The name of a general register, 0 to 15 (R10). -/
abbrev Reg := Fin 16

/-- The high byte of a word. -/
def highByte (w : Word) : Byte := w.extractLsb' 8 8

/-- The low byte of a word. -/
def lowByte (w : Word) : Byte := w.extractLsb' 0 8

end Sys2Proof
end

