-- ==== Sys2Proof/Machine/Flags.lean ====
section
/-!
DEFINITION. Every flag the spec computes; each is the byte 0 or 1 that is written to `VF` (10_state.md R11, R19).
-/

namespace Sys2Proof.Machine

/-- A flag as the byte 0 or 1 (R11). -/
def flagByte (c : Bool) : Byte := if c then 1 else 0

/-- Carry out of bit 7: the unsigned sum exceeds 255 (R126). -/
def carry (a b : Byte) : Byte := flagByte (decide (255 < a.toNat + b.toNat))

/-- 1 for no borrow in `a - b` (R127, R129). -/
def noBorrow (a b : Byte) : Byte := flagByte (decide (b.toNat ≤ a.toNat))

/-- The bit a right shift drops (R128). -/
def lowBit (a : Byte) : Byte := flagByte (a.getLsbD 0)

/-- The bit a left shift drops (R130). -/
def highBit (a : Byte) : Byte := flagByte (a.getLsbD 7)

/-- Carry out of bit 11 of `I`: the sum exceeds 0xFFF (R141). -/
def indexCarry (i : Addr) (a : Byte) : Byte := flagByte (decide (0xFFF < i.toNat + a.toNat))

/-- Collision of a draw (R161). -/
def collision (hit : Bool) : Byte := flagByte hit

end Sys2Proof.Machine
end

