-- ==== Sys2Proof/Syntax.lean ====
section
/-!
DEFINITION. The instructions: one constructor per row of spec/opcode_table.json, in the table's order (30_encoding.md R73).
Ignored bits of a word (R71) are no part of an instruction.
-/

namespace Sys2Proof

/-- The 34 instructions of R73. `x`, `y` name registers, `kk` is an 8-bit immediate, `nnn` a 12-bit address, `n` a count of
sprite rows (R65, R74). -/
inductive Instr where
  /-- `0hE0` clear-screen (R160) -/
  | clearScreen
  /-- `0hEE` return (R100) -/
  | ret
  /-- `1nnn` jump (R101) -/
  | jump (nnn : Addr)
  /-- `2nnn` call (R102) -/
  | call (nnn : Addr)
  /-- `3xkk` skip-eq-imm (R103) -/
  | skipEqImm (x : Reg) (kk : Byte)
  /-- `4xkk` skip-ne-imm (R104) -/
  | skipNeImm (x : Reg) (kk : Byte)
  /-- `5xyh` skip-eq-reg (R105) -/
  | skipEqReg (x y : Reg)
  /-- `6xkk` load-imm (R120) -/
  | loadImm (x : Reg) (kk : Byte)
  /-- `7xkk` add-imm (R121) -/
  | addImm (x : Reg) (kk : Byte)
  /-- `8xy0` reg-to-reg (R122) -/
  | regToReg (x y : Reg)
  /-- `8xy1` or (R123) -/
  | orReg (x y : Reg)
  /-- `8xy2` and (R124) -/
  | andReg (x y : Reg)
  /-- `8xy3` xor (R125) -/
  | xorReg (x y : Reg)
  /-- `8xy4` add-reg (R126) -/
  | addReg (x y : Reg)
  /-- `8xy5` sub-reg-fwd (R127) -/
  | subRegFwd (x y : Reg)
  /-- `8xh6` shift-right (R128) -/
  | shiftRight (x : Reg)
  /-- `8xy7` sub-reg-rev (R129) -/
  | subRegRev (x y : Reg)
  /-- `8xhE` shift-left (R130) -/
  | shiftLeft (x : Reg)
  /-- `9xyh` skip-ne-reg (R106) -/
  | skipNeReg (x y : Reg)
  /-- `Annn` set-index (R140) -/
  | setIndex (nnn : Addr)
  /-- `Bnnn` jump-offset (R107) -/
  | jumpOffset (nnn : Addr)
  /-- `Cxkk` random-and (R131) -/
  | randomAnd (x : Reg) (kk : Byte)
  /-- `Dxyn` draw-sprite (R161); `n` is a count and is well formed from 0 to 15 -/
  | drawSprite (x y : Reg) (n : Nat)
  /-- `Ex9E` skip-if-key (R170) -/
  | skipIfKey (x : Reg)
  /-- `ExA1` skip-if-not-key (R171) -/
  | skipIfNotKey (x : Reg)
  /-- `Fx07` read-delay (R172) -/
  | readDelay (x : Reg)
  /-- `Fx0A` wait-key (R173) -/
  | waitKey (x : Reg)
  /-- `Fx15` set-delay (R174) -/
  | setDelay (x : Reg)
  /-- `Fx18` set-sound (R175) -/
  | setSound (x : Reg)
  /-- `Fx1E` add-to-index (R141) -/
  | addToIndex (x : Reg)
  /-- `Fx29` font-char (R142) -/
  | fontChar (x : Reg)
  /-- `Fx33` store-bcd (R143) -/
  | storeBcd (x : Reg)
  /-- `Fx55` store-regs (R144); `x` is the last register stored -/
  | storeRegs (x : Reg)
  /-- `Fx65` load-regs (R145); `x` is the last register loaded -/
  | loadRegs (x : Reg)
  deriving DecidableEq, Repr

end Sys2Proof
end

