-- ==== Sys2Proof/WellFormed.lean ====
section
/-!
DEFINITION. Which instructions some word encodes. Register names, `kk` and `nnn` carry their width in their type (R65), so the
one thing left to check is the row count of draw-sprite, a 4-bit field (R65, R74).
-/

namespace Sys2Proof

/-- The operands fit the fields of the instruction's format (R65). -/
def Instr.wellFormed : Instr → Bool
  | .clearScreen => true
  | .ret => true
  | .jump _ => true
  | .call _ => true
  | .skipEqImm _ _ => true
  | .skipNeImm _ _ => true
  | .skipEqReg _ _ => true
  | .loadImm _ _ => true
  | .addImm _ _ => true
  | .regToReg _ _ => true
  | .orReg _ _ => true
  | .andReg _ _ => true
  | .xorReg _ _ => true
  | .addReg _ _ => true
  | .subRegFwd _ _ => true
  | .shiftRight _ => true
  | .subRegRev _ _ => true
  | .shiftLeft _ => true
  | .skipNeReg _ _ => true
  | .setIndex _ => true
  | .jumpOffset _ => true
  | .randomAnd _ _ => true
  | .drawSprite _ _ n => decide (n ≤ 15)
  | .skipIfKey _ => true
  | .skipIfNotKey _ => true
  | .readDelay _ => true
  | .waitKey _ => true
  | .setDelay _ => true
  | .setSound _ => true
  | .addToIndex _ => true
  | .fontChar _ => true
  | .storeBcd _ => true
  | .storeRegs _ => true
  | .loadRegs _ => true

end Sys2Proof
end

