-- ==== Sys2Proof/Decode.lean ====
section
/-!
DEFINITION. Decoding (30_encoding.md R65 to R73) and, after it, the encoder, the rows of the opcode map and the host's view of
the decoder. Decoding is total: a word with no behaviour is `unknown` by name, fewer than two bytes are `truncated`.
The sub-keys 0xE0, 0xEE, 0x9E ... and the places of `x`, `y`, `kk`, `n` are those of R65 and R67 to R70, which the spec marks
as general knowledge (PRESUMED by the spec, log entry 6).
-/

namespace Sys2Proof

/-- `group = w[15:12]` (R65). -/
def groupOf (w : Word) : BitVec 4 := w.extractLsb' 12 4

/-- `x = w[11:8]` (R65). -/
def xOf (w : Word) : Reg := (w.extractLsb' 8 4).toFin

/-- `y = w[7:4]` (R65). -/
def yOf (w : Word) : Reg := (w.extractLsb' 4 4).toFin

/-- `n = w[3:0]`, a count (R65). -/
def nOf (w : Word) : Nat := (w.extractLsb' 0 4).toNat

/-- `kk = w[7:0]` (R65). -/
def kkOf (w : Word) : Byte := w.extractLsb' 0 8

/-- `nnn = w[11:0]` (R65). -/
def nnnOf (w : Word) : Addr := w.extractLsb' 0 12

/-- `lo4 = w[3:0]`, the sub-key of group 0x8 (R65, R68). -/
def lo4Of (w : Word) : BitVec 4 := w.extractLsb' 0 4

/-- `lo8 = w[7:0]`, the sub-key of groups 0x0, 0xE and 0xF (R65, R67, R69, R70). -/
def lo8Of (w : Word) : Byte := w.extractLsb' 0 8

/-- Group 0x0, by the low byte (R67). -/
def decodeGroup0 (w : Word) : Option Instr :=
  match lo8Of w with
  | 0xE0#8 => some .clearScreen
  | 0xEE#8 => some .ret
  | _ => none

/-- Group 0x8, by the low nibble (R68). -/
def decodeGroup8 (w : Word) : Option Instr :=
  match lo4Of w with
  | 0x0#4 => some (.regToReg (xOf w) (yOf w))
  | 0x1#4 => some (.orReg (xOf w) (yOf w))
  | 0x2#4 => some (.andReg (xOf w) (yOf w))
  | 0x3#4 => some (.xorReg (xOf w) (yOf w))
  | 0x4#4 => some (.addReg (xOf w) (yOf w))
  | 0x5#4 => some (.subRegFwd (xOf w) (yOf w))
  | 0x6#4 => some (.shiftRight (xOf w))
  | 0x7#4 => some (.subRegRev (xOf w) (yOf w))
  | 0xE#4 => some (.shiftLeft (xOf w))
  | _ => none

/-- Group 0xE, by the low byte (R69). -/
def decodeGroupE (w : Word) : Option Instr :=
  match lo8Of w with
  | 0x9E#8 => some (.skipIfKey (xOf w))
  | 0xA1#8 => some (.skipIfNotKey (xOf w))
  | _ => none

/-- Group 0xF, by the low byte (R70). -/
def decodeGroupF (w : Word) : Option Instr :=
  match lo8Of w with
  | 0x07#8 => some (.readDelay (xOf w))
  | 0x0A#8 => some (.waitKey (xOf w))
  | 0x15#8 => some (.setDelay (xOf w))
  | 0x18#8 => some (.setSound (xOf w))
  | 0x1E#8 => some (.addToIndex (xOf w))
  | 0x29#8 => some (.fontChar (xOf w))
  | 0x33#8 => some (.storeBcd (xOf w))
  | 0x55#8 => some (.storeRegs (xOf w))
  | 0x65#8 => some (.loadRegs (xOf w))
  | _ => none

/-- Primary decode by the top four bits (R66); `none` is an unknown instruction (R72). -/
def decodeWord (w : Word) : Option Instr :=
  match groupOf w with
  | 0x0#4 => decodeGroup0 w
  | 0x1#4 => some (.jump (nnnOf w))
  | 0x2#4 => some (.call (nnnOf w))
  | 0x3#4 => some (.skipEqImm (xOf w) (kkOf w))
  | 0x4#4 => some (.skipNeImm (xOf w) (kkOf w))
  | 0x5#4 => some (.skipEqReg (xOf w) (yOf w))
  | 0x6#4 => some (.loadImm (xOf w) (kkOf w))
  | 0x7#4 => some (.addImm (xOf w) (kkOf w))
  | 0x8#4 => decodeGroup8 w
  | 0x9#4 => some (.skipNeReg (xOf w) (yOf w))
  | 0xA#4 => some (.setIndex (nnnOf w))
  | 0xB#4 => some (.jumpOffset (nnnOf w))
  | 0xC#4 => some (.randomAnd (xOf w) (kkOf w))
  | 0xD#4 => some (.drawSprite (xOf w) (yOf w) (nOf w))
  | 0xE#4 => decodeGroupE w
  | _ => decodeGroupF w

/-- What decoding a list of bytes answers. -/
inductive Decoded where
  /-- a known instruction, and the bytes after it -/
  | instr (i : Instr) (rest : List Byte)
  /-- two bytes that form a word with no behaviour (R72) -/
  | unknown (w : Word)
  /-- fewer than two bytes: no word to decode (R65) -/
  | truncated
  deriving DecidableEq, Repr

/-- The word of two bytes, the first one high (R47, R63). -/
def wordOfBytes (hi lo : Byte) : Word := hi ++ lo

/-- The two bytes of a word in memory order, high byte first (R47). -/
def bytesOfWord (w : Word) : List Byte := [highByte w, lowByte w]

/-- Decoding of bytes as they lie in memory (R65): every instruction takes two. -/
def decode : List Byte → Decoded
  | hi :: lo :: rest =>
    match decodeWord (wordOfBytes hi lo) with
    | some i => .instr i rest
    | none => .unknown (wordOfBytes hi lo)
  | [_] => .truncated
  | [] => .truncated

/-- The four bits that name a register. -/
def regBits (r : Reg) : BitVec 4 := BitVec.ofFin r

/-- Format `A` (R65). -/
def encodeA (group : BitVec 4) (nnn : Addr) : Word := group ++ nnn

/-- Format `XK` (R65). -/
def encodeXK (group : BitVec 4) (x : Reg) (kk : Byte) : Word := group ++ (regBits x ++ kk)

/-- Formats `XY`, `XYS` and `XYN` (R65). -/
def encodeXYS (group : BitVec 4) (x y : Reg) (lo : BitVec 4) : Word := group ++ (regBits x ++ (regBits y ++ lo))

/-- Formats `XS` and `Z` (R65). -/
def encodeXS (group : BitVec 4) (x : Reg) (lo8 : Byte) : Word := group ++ (regBits x ++ lo8)

/-- The word of a well-formed instruction, by the rows of R73; ignored bits are 0. -/
def encode : Instr → Word
  | .clearScreen => encodeXS 0x0 0 0xE0
  | .ret => encodeXS 0x0 0 0xEE
  | .jump nnn => encodeA 0x1 nnn
  | .call nnn => encodeA 0x2 nnn
  | .skipEqImm x kk => encodeXK 0x3 x kk
  | .skipNeImm x kk => encodeXK 0x4 x kk
  | .skipEqReg x y => encodeXYS 0x5 x y 0x0
  | .loadImm x kk => encodeXK 0x6 x kk
  | .addImm x kk => encodeXK 0x7 x kk
  | .regToReg x y => encodeXYS 0x8 x y 0x0
  | .orReg x y => encodeXYS 0x8 x y 0x1
  | .andReg x y => encodeXYS 0x8 x y 0x2
  | .xorReg x y => encodeXYS 0x8 x y 0x3
  | .addReg x y => encodeXYS 0x8 x y 0x4
  | .subRegFwd x y => encodeXYS 0x8 x y 0x5
  | .shiftRight x => encodeXYS 0x8 x 0 0x6
  | .subRegRev x y => encodeXYS 0x8 x y 0x7
  | .shiftLeft x => encodeXYS 0x8 x 0 0xE
  | .skipNeReg x y => encodeXYS 0x9 x y 0x0
  | .setIndex nnn => encodeA 0xA nnn
  | .jumpOffset nnn => encodeA 0xB nnn
  | .randomAnd x kk => encodeXK 0xC x kk
  | .drawSprite x y n => encodeXYS 0xD x y (BitVec.ofNat 4 n)
  | .skipIfKey x => encodeXS 0xE x 0x9E
  | .skipIfNotKey x => encodeXS 0xE x 0xA1
  | .readDelay x => encodeXS 0xF x 0x07
  | .waitKey x => encodeXS 0xF x 0x0A
  | .setDelay x => encodeXS 0xF x 0x15
  | .setSound x => encodeXS 0xF x 0x18
  | .addToIndex x => encodeXS 0xF x 0x1E
  | .fontChar x => encodeXS 0xF x 0x29
  | .storeBcd x => encodeXS 0xF x 0x33
  | .storeRegs x => encodeXS 0xF x 0x55
  | .loadRegs x => encodeXS 0xF x 0x65

/-- The two bytes of a well-formed instruction, as they lie in memory. -/
def encodeBytes (i : Instr) : List Byte := bytesOfWord (encode i)

/-- The columns `mask` and `match` of the instruction's row in R73. -/
def rowOf : Instr → Word × Word
  | .clearScreen => (0xF0FF, 0x00E0)
  | .ret => (0xF0FF, 0x00EE)
  | .jump _ => (0xF000, 0x1000)
  | .call _ => (0xF000, 0x2000)
  | .skipEqImm _ _ => (0xF000, 0x3000)
  | .skipNeImm _ _ => (0xF000, 0x4000)
  | .skipEqReg _ _ => (0xF000, 0x5000)
  | .loadImm _ _ => (0xF000, 0x6000)
  | .addImm _ _ => (0xF000, 0x7000)
  | .regToReg _ _ => (0xF00F, 0x8000)
  | .orReg _ _ => (0xF00F, 0x8001)
  | .andReg _ _ => (0xF00F, 0x8002)
  | .xorReg _ _ => (0xF00F, 0x8003)
  | .addReg _ _ => (0xF00F, 0x8004)
  | .subRegFwd _ _ => (0xF00F, 0x8005)
  | .shiftRight _ => (0xF00F, 0x8006)
  | .subRegRev _ _ => (0xF00F, 0x8007)
  | .shiftLeft _ => (0xF00F, 0x800E)
  | .skipNeReg _ _ => (0xF000, 0x9000)
  | .setIndex _ => (0xF000, 0xA000)
  | .jumpOffset _ => (0xF000, 0xB000)
  | .randomAnd _ _ => (0xF000, 0xC000)
  | .drawSprite _ _ _ => (0xF000, 0xD000)
  | .skipIfKey _ => (0xF0FF, 0xE09E)
  | .skipIfNotKey _ => (0xF0FF, 0xE0A1)
  | .readDelay _ => (0xF0FF, 0xF007)
  | .waitKey _ => (0xF0FF, 0xF00A)
  | .setDelay _ => (0xF0FF, 0xF015)
  | .setSound _ => (0xF0FF, 0xF018)
  | .addToIndex _ => (0xF0FF, 0xF01E)
  | .fontChar _ => (0xF0FF, 0xF029)
  | .storeBcd _ => (0xF0FF, 0xF033)
  | .storeRegs _ => (0xF0FF, 0xF055)
  | .loadRegs _ => (0xF0FF, 0xF065)

/-- The bits of a word that the instruction's format uses: all but those R71 calls ignored. -/
def usedBits : Instr → Word
  | .clearScreen => 0xF0FF
  | .ret => 0xF0FF
  | .skipEqReg _ _ => 0xFFF0
  | .skipNeReg _ _ => 0xFFF0
  | .shiftRight _ => 0xFF0F
  | .shiftLeft _ => 0xFF0F
  | .jump _ => 0xFFFF
  | .call _ => 0xFFFF
  | .skipEqImm _ _ => 0xFFFF
  | .skipNeImm _ _ => 0xFFFF
  | .loadImm _ _ => 0xFFFF
  | .addImm _ _ => 0xFFFF
  | .regToReg _ _ => 0xFFFF
  | .orReg _ _ => 0xFFFF
  | .andReg _ _ => 0xFFFF
  | .xorReg _ _ => 0xFFFF
  | .addReg _ _ => 0xFFFF
  | .subRegFwd _ _ => 0xFFFF
  | .subRegRev _ _ => 0xFFFF
  | .setIndex _ => 0xFFFF
  | .jumpOffset _ => 0xFFFF
  | .randomAnd _ _ => 0xFFFF
  | .drawSprite _ _ _ => 0xFFFF
  | .skipIfKey _ => 0xFFFF
  | .skipIfNotKey _ => 0xFFFF
  | .readDelay _ => 0xFFFF
  | .waitKey _ => 0xFFFF
  | .setDelay _ => 0xFFFF
  | .setSound _ => 0xFFFF
  | .addToIndex _ => 0xFFFF
  | .fontChar _ => 0xFFFF
  | .storeBcd _ => 0xFFFF
  | .storeRegs _ => 0xFFFF
  | .loadRegs _ => 0xFFFF

/-- The word whose bits are `w` in the opcode table's numbering, every bit from `nbits` upward 0. -/
def tableWord (nbits w : Nat) : Word := BitVec.ofNat 16 (w % 2 ^ nbits)

/-- The host's question to the decoder: the instruction of a table word laid out as the hardware stores it. -/
def decodeTableWord (nbits w : Nat) : Option Instr :=
  match decode (bytesOfWord (tableWord nbits w)) with
  | .instr i _ => some i
  | .unknown _ => none
  | .truncated => none

end Sys2Proof
end

