-- ==== Sys2Proof/Config.lean ====
section
/-!
DEFINITION. What is fixed for the machine: the font table (a parameter with the spec's default), and the free values (constants
without a body, so that no proof can know them). The sizes of R4 are not parameters and stand in the definitions as numbers: memory 4096, program origin 512,
longest image 3584, font table 80 bytes of 5 per glyph.
-/

namespace Sys2Proof.Config

/-- `FONT[0..79]`, the parameter of R27. PRESUMED: the bytes are the default of 92_eei_decisions.md D13, which the spec takes
from general knowledge (log entry 3; unsafe for a claim that rests on a byte of it). No instruction's rule depends on them. -/
def font : List Byte :=
  [0xF0, 0x90, 0x90, 0x90, 0xF0, 0x20, 0x60, 0x20, 0x20, 0x70] ++
  [0xF0, 0x10, 0xF0, 0x80, 0xF0, 0xF0, 0x10, 0xF0, 0x10, 0xF0] ++
  [0x90, 0x90, 0xF0, 0x10, 0x10, 0xF0, 0x80, 0xF0, 0x10, 0xF0] ++
  [0xF0, 0x80, 0xF0, 0x90, 0xF0, 0xF0, 0x10, 0x20, 0x40, 0x40] ++
  [0xF0, 0x90, 0xF0, 0x90, 0xF0, 0xF0, 0x90, 0xF0, 0x10, 0xF0] ++
  [0xF0, 0x90, 0xF0, 0x90, 0x90, 0xE0, 0x90, 0xE0, 0x90, 0xE0] ++
  [0xF0, 0x80, 0x80, 0x80, 0xF0, 0xE0, 0x90, 0x90, 0x90, 0xE0] ++
  [0xF0, 0x80, 0xF0, 0x80, 0xF0, 0xF0, 0x80, 0xF0, 0x80, 0x80]

/-- The random byte of random-and (R131, D9): the byte the outside supplies at the `k`-th draw. A free value: it has no body,
so a claim holds whatever bytes arrive (log entry 1). -/
opaque rnd (k : Nat) : Byte

/-- Which error `loadProgram` returns when the image is too long AND the bytes delivered are not as many as declared: R244 and
R245 both apply and the spec gives no order. A free value (log entry 22). -/
opaque shortReadFirst (declared delivered : Nat) : Bool

end Sys2Proof.Config
end

