-- ==== Sys2Proof/Machine/State.lean ====
section
/-!
DEFINITION. The state of the machine as plain data (10_state.md R10 to R23), the report output of a step (60_exceptions.md R201),
the reasons a step can stop, and the state after reset (R27).
-/

namespace Sys2Proof.Machine

/-- The report output of a step, with its information value (R200, R201). -/
inductive Report where
  /-- code 0: nothing to report -/
  | none
  /-- code 1: `PC >= 4096`; the information is `PC` (R202) -/
  | halted (pc : Word)
  /-- code 2: `PC = 4095`; the information is `PC` (R203) -/
  | fetchOutOfRange (pc : Word)
  /-- code 3: no behaviour for the fetched word (R204) -/
  | unknownInstruction (w : Word)
  /-- code 4: call with a full stack; the information is the address after the call (R205) -/
  | stackOverflow (pc : Word)
  /-- code 5: return with an empty stack; the information is the address after the return (R206) -/
  | stackUnderflow (pc : Word)
  /-- code 6: a data range passes 4095; the information is the last address of the range, which needs 13 bits (R43, R207) -/
  | addressOutOfRange (addr : Nat)
  /-- code 7: a key index above 15; the information is the register's value (R208) -/
  | keyIndexOutOfRange (k : Byte)
  deriving DecidableEq, Repr

/-- Reasons to stop the machine. There are none: "No condition stops the machine, changes where control goes, or is remembered
in state" (R200), and a step always runs to completion (R60). The type is empty, so no meaning can fault. -/
inductive Fault where
  deriving DecidableEq, Repr

/-- Reasons to give an instruction no meaning. -/
inductive Refusal where
  /-- raised by an arm of `exec` whose instruction has no meaning yet; no arm raises it now (safe: nothing follows from it) -/
  | notModelled (mnemonic : String)
  deriving DecidableEq, Repr

/-- Memory: the cells whose byte differs from the reset contents, addresses strictly rising (R20, R27). -/
abbrev Memory := List Host.Cell

/-- The display: row `cy` (0 at the top) is a vector of 64 cells, cell `cx` (0 at the left) being its bit `cx` (R21, R162). -/
abbrev Display := Vector (BitVec 64) 32

/-- All state of the Machine (R10 to R23), and two fields of the model's own (`report`, `rndDraws`). -/
structure State where
  /-- `V[0]` to `V[15]` (R10) -/
  v : Vector Byte 16
  /-- `I` (R13) -/
  i : Addr
  /-- `PC` (R14) -/
  pc : Word
  /-- `SP`, 0 to 16 (R17) -/
  sp : Fin 17
  /-- `STACK[0]` to `STACK[15]` (R16) -/
  stack : Vector Word 16
  /-- `DT` (R18) -/
  dt : Byte
  /-- `ST` (R18) -/
  st : Byte
  /-- `MEM` (R20) -/
  mem : Memory
  /-- `DISP` (R21) -/
  disp : Display
  /-- `KEY[0]` to `KEY[15]`, true for pressed (R22) -/
  key : Vector Bool 16
  /-- `IR` (R23) -/
  ir : Word
  /-- the model's own: the report of the step that led here (R200: an output, read by nothing; log entry 2) -/
  report : Report
  /-- the model's own: how many random bytes have been drawn (R131; log entry 1) -/
  rndDraws : Nat
  deriving DecidableEq, Repr

/-- The machine right after `initialize()` or `reset()` (R27, R240); no memory cell differs from its reset contents. The last two
fields are the model's own: DESIGN CHOICE, log entries 1 and 2. -/
def State.reset : State where
  v := Vector.replicate 16 0
  i := 0
  pc := 512
  sp := 0
  stack := Vector.replicate 16 0
  dt := 0
  st := 0
  mem := []
  disp := Vector.replicate 32 0
  key := Vector.replicate 16 false
  ir := 0
  report := .none
  rndDraws := 0

end Sys2Proof.Machine
end

