-- ==== Sys2Proof/Machine/Ops.lean ====
section
/-!
DEFINITION. The named operations over memory, registers, stack, display and timers, the raising of a condition (this hardware's
whole exception mechanism, 60_exceptions.md R200 to R211), and the stages of the step cycle (30_encoding.md R60).
-/

namespace Sys2Proof.Machine

/-- What a meaning answers. -/
abbrev Result := Host.Outcome State Fault Refusal

-- ==== memory (20_memory.md) ====

/-- What an address that no write has changed holds: `FONT` in 0 to 79, 0 above (R27). -/
def resetByte (a : Nat) : Byte := if a < 80 then Config.font.getD a 0 else 0

/-- `MemRead(a, 1)` (R41). -/
def Memory.read : Memory → Nat → Byte
  | [], a => resetByte a
  | (b, u) :: rest, a => if a < b then resetByte a else if a = b then u else Memory.read rest a

/-- `MemWrite(a, 1, u)` (R41). A cell that gets its reset contents back is no longer listed. -/
def Memory.write : Memory → Nat → Byte → Memory
  | [], a, u => if u = resetByte a then [] else [(a, u)]
  | (b, t) :: rest, a, u =>
    if a < b then (if u = resetByte a then (b, t) :: rest else (a, u) :: (b, t) :: rest)
    else if a = b then (if u = resetByte a then rest else (a, u) :: rest)
    else (b, t) :: Memory.write rest a u

/-- The canonical form from address `lo` on: addresses rising and inside the 4096 bytes, no cell at its reset contents. -/
def Memory.wfFrom : Nat → Memory → Bool
  | _, [] => true
  | lo, (b, u) :: rest => decide (lo ≤ b) && decide (b < 4096) && decide (u ≠ resetByte b) && Memory.wfFrom (b + 1) rest

/-- The canonical form of memory: equal memories are equal lists. -/
def Memory.wf (m : Memory) : Bool := Memory.wfFrom 0 m

/-- The `len` bytes from `a` on, at rising addresses (R47). -/
def Memory.readRange (m : Memory) : Nat → Nat → List Byte
  | _, 0 => []
  | a, len + 1 => m.read a :: Memory.readRange m (a + 1) len

/-- Writes bytes from `a` on, at rising addresses (R47). -/
def Memory.writeRange (m : Memory) : Nat → List Byte → Memory
  | _, [] => m
  | a, u :: us => Memory.writeRange (m.write a u) (a + 1) us

-- ==== registers ====

/-- `VF`, the register that flags are written to (R11). -/
abbrev vf : Reg := 15

/-- `V[x]`. -/
def State.reg (s : State) (x : Reg) : Byte := s.v.get x

/-- `V[x] <- u`. -/
def State.setReg (s : State) (x : Reg) (u : Byte) : State := { s with v := s.v.set x.val u x.isLt }

/-- `V[k] <- f k` for every register at once. -/
def State.setRegs (s : State) (f : Reg → Byte) : State := { s with v := Vector.ofFn f }

/-- `I <- a`. -/
def State.setIndex (s : State) (a : Addr) : State := { s with i := a }

/-- `PC <- a`. -/
def State.setPc (s : State) (a : Word) : State := { s with pc := a }

/-- `DT <- u`. -/
def State.setDt (s : State) (u : Byte) : State := { s with dt := u }

/-- `ST <- u`. -/
def State.setSt (s : State) (u : Byte) : State := { s with st := u }

/-- The memory after a body's writes. -/
def State.setMem (s : State) (m : Memory) : State := { s with mem := m }

/-- The display after a body's writes. -/
def State.setDisp (s : State) (d : Display) : State := { s with disp := d }

/-- The random input of the next draw has been used (R131: drawn anew at each execution). -/
def State.nextRnd (s : State) : State := { s with rndDraws := s.rndDraws + 1 }

/-- `KEY[k]`. -/
def State.keyDown (s : State) (k : Fin 16) : Bool := s.key.get k

-- ==== conditions (60_exceptions.md) ====

/-- `raise c`: none of the body's writes are made, and the step presents `c` (R80, R200). -/
def State.raise (s : State) (c : Report) : State := { s with report := c }

/-- The codes of R201. -/
def Report.code : Report → Nat
  | .none => 0
  | .halted _ => 1
  | .fetchOutOfRange _ => 2
  | .unknownInstruction _ => 3
  | .stackOverflow _ => 4
  | .stackUnderflow _ => 5
  | .addressOutOfRange _ => 6
  | .keyIndexOutOfRange _ => 7

/-- The range `[I, I + len)` lies inside memory; an empty range always does (R42). -/
def State.rangeOk (s : State) (len : Nat) : Bool := decide (len = 0 ∨ s.i.toNat + len ≤ 4096)

/-- Validation of a body's whole data range before its first access (R42, R207). -/
def State.guardRange (s : State) (len : Nat) (body : State) : State :=
  if s.rangeOk len then body else s.raise (.addressOutOfRange (s.i.toNat + len - 1))

-- ==== control ====

/-- A skip that is taken adds a further 2 to `PC` (R103 to R106, R170, R171). -/
def State.skipIf (s : State) (c : Bool) : State := if c then s.setPc (s.pc + 2) else s

/-- Pushes `PC` and goes to `target`; with 16 addresses on the stack it raises StackOverflow instead (R102, R205). -/
def State.callTo (s : State) (target : Word) : State :=
  if h : s.sp.val < 16 then
    { s with stack := s.stack.set s.sp.val s.pc h, sp := ⟨s.sp.val + 1, by omega⟩, pc := target }
  else s.raise (.stackOverflow s.pc)

/-- Pops `PC`, leaving the slot as it is; with an empty stack it raises StackUnderflow instead (R100, R206). -/
def State.returnToCaller (s : State) : State :=
  if h : 0 < s.sp.val then
    { s with sp := ⟨s.sp.val - 1, by have := s.sp.isLt; omega⟩, pc := s.stack.get ⟨s.sp.val - 1, by have := s.sp.isLt; omega⟩ }
  else s.raise (.stackUnderflow s.pc)

-- ==== display (43_display.md) ====

/-- The cell at column `cx`, row `cy`; false outside the 64 by 32 cells (R162). -/
def Display.pixel (d : Display) (cx cy : Nat) : Bool := if h : cy < 32 then (d.get ⟨cy, h⟩).getLsbD cx else false

/-- `DISP[c]`, row-major from the top left (R21, R162). -/
def Display.cell (d : Display) (c : Nat) : Bool := d.pixel (c % 64) (c / 64)

/-- Every cell 0 (R160). -/
def Display.clear : Display := Vector.replicate 32 0

/-- The cells of one display row that a sprite row starting at column `px` covers: bit 7 falls on column `px`, bit 0 on `px + 7`, and
columns from 64 on are lost, not wrapped (R161 to R163). -/
def spriteMask (px : Nat) (row : Byte) : BitVec 64 := if px < 64 then (row.reverse.setWidth 64) <<< px else 0

/-- XORs one sprite row into display row `cy`; the flag tells whether a cell went from 1 to 0. Rows from 32 on are skipped
(R161, R163). -/
def Display.drawRow (d : Display) (px cy : Nat) (row : Byte) : Display × Bool :=
  if h : cy < 32 then
    (d.set cy (d.get ⟨cy, h⟩ ^^^ spriteMask px row) h, decide (d.get ⟨cy, h⟩ &&& spriteMask px row ≠ 0))
  else (d, false)

/-- XORs the sprite rows from row `cy` downward; the flag is of the whole draw (R161). -/
def Display.drawRows (d : Display) (px : Nat) : Nat → List Byte → Display × Bool
  | _, [] => (d, false)
  | cy, row :: rows =>
    ((Display.drawRows (d.drawRow px cy row).1 px (cy + 1) rows).1,
      (d.drawRow px cy row).2 || (Display.drawRows (d.drawRow px cy row).1 px (cy + 1) rows).2)

-- ==== the step cycle (30_encoding.md R60) ====

/-- A timer counts down by 1 and stays at 0 (R18, R212). -/
def tickTimer (t : Byte) : Byte := if t = 0 then 0 else t - 1

/-- Stage (6): both timers (R212). -/
def State.tick (s : State) : State := { s with dt := tickTimer s.dt, st := tickTimer s.st }

/-- Stage (3): the word at `PC`, high byte first (R63). -/
def State.wordAtPc (s : State) : Word := wordOfBytes (s.mem.read s.pc.toNat) (s.mem.read (s.pc.toNat + 1))

/-- Stages (3) and (4): `IR` holds the word, `PC` is past it, nothing is reported so far (R63, R64). -/
def State.fetched (s : State) : State := { s with ir := s.wordAtPc, pc := s.pc + 2, report := .none }

/-- Stages (1) and (2): the condition that makes a step a no-op (R61, R62). -/
def State.noFetch (s : State) : Option Report :=
  if 4096 ≤ s.pc.toNat then some (.halted s.pc)
  else if s.pc.toNat + 1 = 4096 then some (.fetchOutOfRange s.pc)
  else none

/-- Stage (6) after a body that answered. -/
def finish : Result → Result
  | .next t => .next t.tick
  | .fault r => .fault r
  | .refused r => .refused r

/-- Places a word where the next fetch reads it, high byte first (R47). A state whose step would not fetch is left alone. -/
def State.placeWord (s : State) (w : Word) : State :=
  if s.pc.toNat + 1 < 4096 then s.setMem (s.mem.writeRange s.pc.toNat (bytesOfWord w)) else s

end Sys2Proof.Machine
end

