-- ==== Sys2Proof/Machine/Operands.lean ====
section
/-!
DEFINITION. The operand forms (30_encoding.md R74, 42_index_memory.md R146): what an instruction reads and in which form.
-/

namespace Sys2Proof.Machine

/-- A 12-bit address as a value of `PC` (R74: zero-extended). -/
def target (nnn : Addr) : Word := nnn.setWidth 16

/-- The target of jump-offset: the 13-bit sum, not reduced (R107). -/
def offsetTarget (nnn : Addr) (v0 : Byte) : Word := nnn.setWidth 16 + v0.setWidth 16

/-- A register's value as a key index, if there is such a key (R170, R171). -/
def keyIndex (a : Byte) : Option (Fin 16) := if h : a.toNat < 16 then some ⟨a.toNat, h⟩ else none

/-- The least pressed key (R173). -/
def firstKey (s : State) : Option (Fin 16) := (List.finRange 16).find? (fun k => s.keyDown k)

/-- A key's index as a register value. -/
def keyByte (k : Fin 16) : Byte := BitVec.ofNat 8 k.val

/-- The three decimal digits, hundreds first (R143). -/
def bcdDigits (a : Byte) : List Byte :=
  [BitVec.ofNat 8 (a.toNat / 100), BitVec.ofNat 8 (a.toNat / 10 % 10), BitVec.ofNat 8 (a.toNat % 10)]

/-- The address of a glyph: all 8 bits of the register times 5 (R142). -/
def glyphAddr (a : Byte) : Addr := BitVec.ofNat 12 (a.toNat * 5)

/-- `I + a`, reduced to the 12 bits of `I` (R141). -/
def indexSum (i : Addr) (a : Byte) : Addr := BitVec.ofNat 12 (i.toNat + a.toNat)

/-- How many registers `V[0..=x]` are (R144, R145). -/
def regCount (x : Reg) : Nat := x.val + 1

/-- `V[0]` to `V[x]`, in order (R144). -/
def regsUpTo (s : State) (x : Reg) : List Byte := s.v.toList.take (regCount x)

/-- `V[k]` after `MEM[I + k]` has been loaded into every register up to `x` (R145). -/
def loadedReg (s : State) (x k : Reg) : Byte := if k ≤ x then s.mem.read (s.i.toNat + k.val) else s.reg k

/-- The `n` rows of a sprite (R161). -/
def spriteRows (s : State) (n : Nat) : List Byte := s.mem.readRange s.i.toNat n

/-- The random byte of this execution (R131). -/
def rndByte (s : State) : Byte := Config.rnd s.rndDraws

end Sys2Proof.Machine
end

