-- ==== Sys2Proof/Machine/Alu.lean ====
section
/-!
DEFINITION. Register, arithmetic and logic instructions (41_alu.md). Operands are read from the state at the body's start; the
writes are made in the order the rule lists, a later one to the same register staying (R79, D7; log entry 12).
-/

namespace Sys2Proof.Machine

/-- load-imm (R120). -/
def execLoadImm (x : Reg) (kk : Byte) (s : State) : Result := .next (s.setReg x kk)

/-- add-imm: wraps, no flag (R121). -/
def execAddImm (x : Reg) (kk : Byte) (s : State) : Result := .next (s.setReg x (s.reg x + kk))

/-- reg-to-reg (R122). -/
def execRegToReg (x y : Reg) (s : State) : Result := .next (s.setReg x (s.reg y))

/-- or (R123). -/
def execOrReg (x y : Reg) (s : State) : Result := .next (s.setReg x (s.reg x ||| s.reg y))

/-- and (R124). -/
def execAndReg (x y : Reg) (s : State) : Result := .next (s.setReg x (s.reg x &&& s.reg y))

/-- xor (R125). -/
def execXorReg (x y : Reg) (s : State) : Result := .next (s.setReg x (s.reg x ^^^ s.reg y))

/-- add-reg: the sum, then the carry (R126). -/
def execAddReg (x y : Reg) (s : State) : Result :=
  .next ((s.setReg x (s.reg x + s.reg y)).setReg vf (carry (s.reg x) (s.reg y)))

/-- sub-reg forward: the flag, then `V[x] - V[y]` (R127). -/
def execSubRegFwd (x y : Reg) (s : State) : Result :=
  .next ((s.setReg vf (noBorrow (s.reg x) (s.reg y))).setReg x (s.reg x - s.reg y))

/-- shift-right: the bit shifted out, then the shifted value; `V[y]` plays no part (R128). -/
def execShiftRight (x : Reg) (s : State) : Result :=
  .next ((s.setReg vf (lowBit (s.reg x))).setReg x (s.reg x >>> 1))

/-- sub-reg reverse: the flag, then `V[y] - V[x]` (R129). -/
def execSubRegRev (x y : Reg) (s : State) : Result :=
  .next ((s.setReg vf (noBorrow (s.reg y) (s.reg x))).setReg x (s.reg y - s.reg x))

/-- shift-left: the bit shifted out, then the shifted value; `V[y]` plays no part (R130). -/
def execShiftLeft (x : Reg) (s : State) : Result :=
  .next ((s.setReg vf (highBit (s.reg x))).setReg x (s.reg x <<< 1))

/-- random-and: the random byte is a free value, drawn anew (R131; log entry 1). -/
def execRandomAnd (x : Reg) (kk : Byte) (s : State) : Result := .next ((s.setReg x (rndByte s &&& kk)).nextRnd)

end Sys2Proof.Machine
end

