-- ==== Sys2Proof/Machine/Control.lean ====
section
/-!
DEFINITION. Control transfer (40_control.md). In every meaning `s.pc` is already the address after the instruction (R64).
-/

namespace Sys2Proof.Machine

/-- return (R100). -/
def execRet (s : State) : Result := .next s.returnToCaller

/-- jump (R101). -/
def execJump (nnn : Addr) (s : State) : Result := .next (s.setPc (target nnn))

/-- call (R102). -/
def execCall (nnn : Addr) (s : State) : Result := .next (s.callTo (target nnn))

/-- skip-eq-imm (R103). -/
def execSkipEqImm (x : Reg) (kk : Byte) (s : State) : Result := .next (s.skipIf (decide (s.reg x = kk)))

/-- skip-ne-imm (R104). -/
def execSkipNeImm (x : Reg) (kk : Byte) (s : State) : Result := .next (s.skipIf (decide (s.reg x ≠ kk)))

/-- skip-eq-reg (R105). -/
def execSkipEqReg (x y : Reg) (s : State) : Result := .next (s.skipIf (decide (s.reg x = s.reg y)))

/-- skip-ne-reg (R106). -/
def execSkipNeReg (x y : Reg) (s : State) : Result := .next (s.skipIf (decide (s.reg x ≠ s.reg y)))

/-- jump-offset (R107): the register is always `V[0]`. -/
def execJumpOffset (nnn : Addr) (s : State) : Result := .next (s.setPc (offsetTarget nnn (s.reg 0)))

end Sys2Proof.Machine
end

