-- ==== Sys2Proof/Machine/Display.lean ====
section
/-!
DEFINITION. Display instructions (43_display.md).
-/

namespace Sys2Proof.Machine

/-- What draw-sprite makes of the display, and whether a cell went off. -/
def drawn (x y : Reg) (n : Nat) (s : State) : Display × Bool :=
  s.disp.drawRows (s.reg x).toNat (s.reg y).toNat (spriteRows s n)

/-- clear-screen (R160). -/
def execClearScreen (s : State) : Result := .next (s.setDisp Display.clear)

/-- draw-sprite: the coordinates, the rows and `I` are read first, `VF` is written once, after all rows (R161). -/
def execDrawSprite (x y : Reg) (n : Nat) (s : State) : Result :=
  .next (s.guardRange n ((s.setDisp (drawn x y n s).1).setReg vf (collision (drawn x y n s).2)))

end Sys2Proof.Machine
end

