-- ==== Sys2Proof/Machine/IndexMemory.lean ====
section
/-!
DEFINITION. Index register and memory instructions (42_index_memory.md).
-/

namespace Sys2Proof.Machine

/-- set-index (R140). -/
def execSetIndex (nnn : Addr) (s : State) : Result := .next (s.setIndex nnn)

/-- add-to-index: the flag, then the sum modulo 4096 (R141). -/
def execAddToIndex (x : Reg) (s : State) : Result :=
  .next ((s.setReg vf (indexCarry s.i (s.reg x))).setIndex (indexSum s.i (s.reg x)))

/-- font-char (R142). -/
def execFontChar (x : Reg) (s : State) : Result := .next (s.setIndex (glyphAddr (s.reg x)))

/-- store-bcd (R143). -/
def execStoreBcd (x : Reg) (s : State) : Result :=
  .next (s.guardRange 3 (s.setMem (s.mem.writeRange s.i.toNat (bcdDigits (s.reg x)))))

/-- store-regs: `I` is not changed (R144). -/
def execStoreRegs (x : Reg) (s : State) : Result :=
  .next (s.guardRange (regCount x) (s.setMem (s.mem.writeRange s.i.toNat (regsUpTo s x))))

/-- load-regs: `I` is not changed (R145). -/
def execLoadRegs (x : Reg) (s : State) : Result :=
  .next (s.guardRange (regCount x) (s.setRegs (loadedReg s x)))

end Sys2Proof.Machine
end

