-- ==== Sys2Proof/Machine/KeypadTimers.lean ====
section
/-!
DEFINITION. Keypad and timer instructions (44_keypad_timers.md). The timers' own decrement follows the body (R212).
-/

namespace Sys2Proof.Machine

/-- skip-if-key (R170); a value above 15 raises KeyIndexOutOfRange and does not skip (R208). -/
def execSkipIfKey (x : Reg) (s : State) : Result :=
  match keyIndex (s.reg x) with
  | some k => .next (s.skipIf (s.keyDown k))
  | none => .next (s.raise (.keyIndexOutOfRange (s.reg x)))

/-- skip-if-not-key (R171); a value above 15 raises KeyIndexOutOfRange and does not skip (R208). -/
def execSkipIfNotKey (x : Reg) (s : State) : Result :=
  match keyIndex (s.reg x) with
  | some k => .next (s.skipIf (!s.keyDown k))
  | none => .next (s.raise (.keyIndexOutOfRange (s.reg x)))

/-- read-delay (R172). -/
def execReadDelay (x : Reg) (s : State) : Result := .next (s.setReg x s.dt)

/-- wait-key: the least pressed key, or `PC` back to the instruction itself (R173). -/
def execWaitKey (x : Reg) (s : State) : Result :=
  match firstKey s with
  | some k => .next (s.setReg x (keyByte k))
  | none => .next (s.setPc (s.pc - 2))

/-- set-delay (R174). -/
def execSetDelay (x : Reg) (s : State) : Result := .next (s.setDt (s.reg x))

/-- set-sound (R175). -/
def execSetSound (x : Reg) (s : State) : Result := .next (s.setSt (s.reg x))

end Sys2Proof.Machine
end

