-- ==== Sys2Proof/Machine/Step.lean ====
section
/-!
DEFINITION. One step (30_encoding.md R60): no-op, or fetch, advance, body, timers. And the host's placing of a word to run next.
-/

namespace Sys2Proof.Machine

/-- One call of `step()` (R60). A no-op step changes nothing but the report output (R61, R62); an unknown word has an empty body
(R72); every other word runs its instruction's body; then the timers count down (R212). -/
def step (s : State) : Host.Outcome State Fault Refusal :=
  match s.noFetch with
  | some c => .next (s.raise c)
  | none =>
    match decodeWord s.wordAtPc with
    | none => .next (s.fetched.raise (.unknownInstruction s.wordAtPc)).tick
    | some i => finish (exec i s.fetched)

/-- `s` with the table word placed where `step` fetches next (log entry 21: it stands for the load of a program). -/
def State.withFetchWord (s : State) (nbits w : Nat) : State := s.placeWord (tableWord nbits w)

end Sys2Proof.Machine
end

