-- ==== Sys2Proof/Machine/HostOps.lean ====
section
/-!
DEFINITION. The operations the host may perform between steps (60_exceptions.md R216 to R220, 70_reset_and_hazards.md R240 to
R248, 10_state.md R29). `step()` is `Sys2Proof.Machine.step`.
-/

namespace Sys2Proof.Machine

/-- `initialize()` (R240): the reset state whatever the state was. The count of random draws is the outside's, not the Machine's
(R25), so it goes on: a reset does not replay the bytes (log entry 25). -/
def hostInitialize (s : State) : State := { State.reset with rndDraws := s.rndDraws }

/-- `reset()` (R241): "identical effect to `initialize()`". -/
def hostReset (s : State) : State := hostInitialize s

/-- The results of `loadProgram` (R243 to R245). -/
inductive LoadResult where
  /-- success, with the number of bytes written (R243) -/
  | written (n : Nat)
  /-- `LoadError::CapacityExceeded`: more than 3584 bytes (R244) -/
  | capacityExceeded
  /-- `LoadError::IoFailure`: the bytes delivered are not as many as declared (R245) -/
  | ioFailure
  deriving DecidableEq, Repr

/-- The error of a load, if any; where both apply the spec gives no order (log entry 22). -/
def loadError (declared delivered : Nat) : Option LoadResult :=
  if 3584 < declared then
    if delivered = declared then some .capacityExceeded
    else if Config.shortReadFirst declared delivered then some .ioFailure else some .capacityExceeded
  else if delivered = declared then none else some .ioFailure

/-- `loadProgram(bytes)` with its declared length: all of it or nothing, and nothing but memory from 512 on (R243 to R246). -/
def loadProgram (declared : Nat) (bytes : List Byte) (s : State) : LoadResult × State :=
  match loadError declared bytes.length with
  | some e => (e, s)
  | none => (.written declared, s.setMem (s.mem.writeRange 512 bytes))

/-- `setInput(keyStates)`: the whole latch; any value but 0 is pressed (R217). -/
def setInput (keyStates : Vector Nat 16) (s : State) : State := { s with key := Vector.ofFn (fun k => decide (keyStates.get k ≠ 0)) }

/-- `getDisplay()`: one byte per cell, 0 or 1 (R216). -/
def getDisplay (s : State) : Vector Byte 2048 := Vector.ofFn (fun c => flagByte (s.disp.cell c.val))

/-- `getSnapshot()`'s copy: exactly the state of R10 to R23 (R29). -/
structure Snapshot where
  v : Vector Byte 16
  i : Addr
  pc : Word
  sp : Fin 17
  stack : Vector Word 16
  dt : Byte
  st : Byte
  mem : Memory
  disp : Display
  key : Vector Bool 16
  ir : Word
  deriving DecidableEq, Repr

/-- `getSnapshot()` (R29, R218). -/
def getSnapshot (s : State) : Snapshot :=
  { v := s.v, i := s.i, pc := s.pc, sp := s.sp, stack := s.stack, dt := s.dt, st := s.st, mem := s.mem, disp := s.disp, key := s.key, ir := s.ir }

/-- The host operations, complete (R220). -/
inductive HostOp where
  | opInitialize
  | opReset
  | opLoad (declared : Nat) (bytes : List Byte)
  | opStep
  | opInput (keyStates : Vector Nat 16)
  | opDisplay
  | opSnapshot
  deriving DecidableEq, Repr

/-- The state after one host operation; the two reads change nothing (R216, R218, R220). -/
def applyOp : HostOp → State → Result
  | .opInitialize, s => .next (hostInitialize s)
  | .opReset, s => .next (hostReset s)
  | .opLoad declared bytes, s => .next (loadProgram declared bytes s).2
  | .opStep, s => step s
  | .opInput keyStates, s => .next (setInput keyStates s)
  | .opDisplay, s => .next s
  | .opSnapshot, s => .next s

end Sys2Proof.Machine
end

