-- ==== Sys2Proof/Safety.lean ====
section
/-!
DEFINITION. The terms claims use: the invariant of every run, what a frame leaves alone, the halted, waiting and clean states, and
which registers an instruction may write.
-/

namespace Sys2Proof.Machine

/-- What holds in every run: memory in canonical form inside its 4096 bytes (R20, R41), `PC` at most 4350 (R15), every stack slot at
most 4096 (R16, R102: a slot holds the address after a call). That `SP` is 0 to 16 (R17) is part of its type. -/
abbrev Inv (s : State) : Prop :=
  s.mem.wf = true ∧ s.pc.toNat ≤ 4350 ∧ ∀ k : Fin 16, (s.stack.get k).toNat ≤ 4096

/-- The step fetches a word (R61, R62). -/
abbrev Fetches (s : State) : Prop := s.pc.toNat ≤ 4094

/-- Halted (R61): `PC >= 4096`. -/
abbrev Halted (s : State) : Prop := 4096 ≤ s.pc.toNat

/-- Waiting (R24): the word at `PC` decodes to wait-key `x` and no key is pressed. -/
def Waiting (x : Reg) (s : State) : Prop :=
  Fetches s ∧ decodeWord s.wordAtPc = some (.waitKey x) ∧ ∀ k : Fin 16, s.keyDown k = false

/-- A step after which no condition stands reported: the premise 93_implementation_defined.md U1 to U3 asks claims to make. -/
def CleanStep (s t : State) : Prop := step s = .next t ∧ t.report = .none

/-- The parts of the state a frame names. -/
inductive Field where
  | regs | index | pc | sp | stack | delay | sound | memory | display | keys | ir | report | draws
  deriving DecidableEq, Repr

/-- One part of the state reads the same before and after. -/
def SameField : Field → State → State → Prop
  | .regs, s, t => ∀ r : Reg, t.reg r = s.reg r
  | .index, s, t => t.i = s.i
  | .pc, s, t => t.pc = s.pc
  | .sp, s, t => t.sp = s.sp
  | .stack, s, t => ∀ k : Fin 16, t.stack.get k = s.stack.get k
  | .delay, s, t => t.dt = s.dt
  | .sound, s, t => t.st = s.st
  | .memory, s, t => ∀ a : Nat, t.mem.read a = s.mem.read a
  | .display, s, t => ∀ c : Nat, t.disp.cell c = s.disp.cell c
  | .keys, s, t => ∀ k : Fin 16, t.keyDown k = s.keyDown k
  | .ir, s, t => t.ir = s.ir
  | .report, s, t => t.report = s.report
  | .draws, s, t => t.rndDraws = s.rndDraws

/-- Everything but the listed parts reads the same before and after. -/
def SameExcept (changed : List Field) (s t : State) : Prop := ∀ f : Field, f ∉ changed → SameField f s t

/-- Every word whose value is `n` decodes to `i`: the encoding of a row, written as a number. -/
def DecodesTo (n : Nat) (i : Instr) : Prop := ∀ w : Word, w.toNat = n → decodeWord w = some i

/-- The registers an instruction may write (R12, R19): its destination field, `VF` for the flag writers, `V[0..=x]` for load-regs. -/
def mayWrite : Instr → Reg → Bool
  | .clearScreen, _ => false
  | .ret, _ => false
  | .jump _, _ => false
  | .call _, _ => false
  | .skipEqImm _ _, _ => false
  | .skipNeImm _ _, _ => false
  | .skipEqReg _ _, _ => false
  | .loadImm x _, r => decide (r = x)
  | .addImm x _, r => decide (r = x)
  | .regToReg x _, r => decide (r = x)
  | .orReg x _, r => decide (r = x)
  | .andReg x _, r => decide (r = x)
  | .xorReg x _, r => decide (r = x)
  | .addReg x _, r => decide (r = x ∨ r = 15)
  | .subRegFwd x _, r => decide (r = x ∨ r = 15)
  | .shiftRight x, r => decide (r = x ∨ r = 15)
  | .subRegRev x _, r => decide (r = x ∨ r = 15)
  | .shiftLeft x, r => decide (r = x ∨ r = 15)
  | .skipNeReg _ _, _ => false
  | .setIndex _, _ => false
  | .jumpOffset _, _ => false
  | .randomAnd x _, r => decide (r = x)
  | .drawSprite _ _ _, r => decide (r = 15)
  | .skipIfKey _, _ => false
  | .skipIfNotKey _, _ => false
  | .readDelay x, r => decide (r = x)
  | .waitKey x, r => decide (r = x)
  | .setDelay _, _ => false
  | .setSound _, _ => false
  | .addToIndex _, r => decide (r = 15)
  | .fontChar _, _ => false
  | .storeBcd _, _ => false
  | .storeRegs _, _ => false
  | .loadRegs x, r => decide (r ≤ x)

/-- The instructions whose rule writes `PC` (R12, R15): jumps, call, return, the skips, wait-key. -/
def mayMovePc : Instr → Bool
  | .ret => true
  | .jump _ => true
  | .call _ => true
  | .skipEqImm _ _ => true
  | .skipNeImm _ _ => true
  | .skipEqReg _ _ => true
  | .skipNeReg _ _ => true
  | .jumpOffset _ => true
  | .skipIfKey _ => true
  | .skipIfNotKey _ => true
  | .waitKey _ => true
  | .clearScreen => false
  | .loadImm _ _ => false
  | .addImm _ _ => false
  | .regToReg _ _ => false
  | .orReg _ _ => false
  | .andReg _ _ => false
  | .xorReg _ _ => false
  | .addReg _ _ => false
  | .subRegFwd _ _ => false
  | .shiftRight _ => false
  | .subRegRev _ _ => false
  | .shiftLeft _ => false
  | .setIndex _ => false
  | .randomAnd _ _ => false
  | .drawSprite _ _ _ => false
  | .readDelay _ => false
  | .setDelay _ => false
  | .setSound _ => false
  | .addToIndex _ => false
  | .fontChar _ => false
  | .storeBcd _ => false
  | .storeRegs _ => false
  | .loadRegs _ => false

/-- The condition an instruction raises in a state, and the information it carries (R201): what the table of conditions says. -/
def conditionOf : Instr → State → Report
  | .ret, s => if s.sp.val = 0 then .stackUnderflow s.pc else .none
  | .call _, s => if s.sp.val = 16 then .stackOverflow s.pc else .none
  | .drawSprite _ _ n, s => if 0 < n ∧ 4096 < s.i.toNat + n then .addressOutOfRange (s.i.toNat + n - 1) else .none
  | .storeBcd _, s => if 4096 < s.i.toNat + 3 then .addressOutOfRange (s.i.toNat + 2) else .none
  | .storeRegs x, s => if 4096 < s.i.toNat + x.val + 1 then .addressOutOfRange (s.i.toNat + x.val) else .none
  | .loadRegs x, s => if 4096 < s.i.toNat + x.val + 1 then .addressOutOfRange (s.i.toNat + x.val) else .none
  | .skipIfKey x, s => if 15 < (s.reg x).toNat then .keyIndexOutOfRange (s.reg x) else .none
  | .skipIfNotKey x, s => if 15 < (s.reg x).toNat then .keyIndexOutOfRange (s.reg x) else .none
  | .clearScreen, _ => .none
  | .jump _, _ => .none
  | .skipEqImm _ _, _ => .none
  | .skipNeImm _ _, _ => .none
  | .skipEqReg _ _, _ => .none
  | .loadImm _ _, _ => .none
  | .addImm _ _, _ => .none
  | .regToReg _ _, _ => .none
  | .orReg _ _, _ => .none
  | .andReg _ _, _ => .none
  | .xorReg _ _, _ => .none
  | .addReg _ _, _ => .none
  | .subRegFwd _ _, _ => .none
  | .shiftRight _, _ => .none
  | .subRegRev _ _, _ => .none
  | .shiftLeft _, _ => .none
  | .skipNeReg _ _, _ => .none
  | .setIndex _, _ => .none
  | .jumpOffset _, _ => .none
  | .randomAnd _ _, _ => .none
  | .readDelay _, _ => .none
  | .waitKey _, _ => .none
  | .setDelay _, _ => .none
  | .setSound _, _ => .none
  | .addToIndex _, _ => .none
  | .fontChar _, _ => .none

end Sys2Proof.Machine
end

