-- ==== Sys2Proof/Certificates/Slice0/Obligations.lean ====
section
/-!
DEFINITION. The statements for the provers. Each is about the machine, never about a program. A statement about a body speaks of
`exec i s`, where `s.pc` is already the address after the instruction (R64); StepRunsTheDecodedInstruction carries it to `step`.
`DecodesTo n i` says that the word of value `n` decodes to `i`; `SameExcept fs s t` that every part of the state but `fs` reads the
same in `t` as in `s`, all of memory byte by byte, all display cells, slots, keys and registers.
-/

open Sys2Proof Sys2Proof.Machine

-- ==== encoding ====

/-- R65 to R71, R73: decoding what the encoder writes gives the instruction back, every operand at every value, as a word and as bytes
in memory order. The sub-keys and field places are the spec's general knowledge (log entry 6). -/
def Obligations.DecodeOfEncode : Prop :=
  ∀ i : Instr, i.wellFormed = true →
    decodeWord (encode i) = some i ∧ ∀ rest : List Byte, decode (encodeBytes i ++ rest) = .instr i rest

/-- R71: a word that decodes is its instruction's encoding in every bit the format uses, and the instruction is well formed.
Encodings: log entries 6 and 20. -/
def Obligations.EncodeOfDecode : Prop :=
  ∀ (w : Word) (i : Instr), decodeWord w = some i → i.wellFormed = true ∧ encode i = w &&& usedBits i

/-- R71: ignored bits change nothing: words that agree on the bits the format uses decode alike. Encodings: log entries 6 and 20. -/
def Obligations.IgnoredBitsDoNotMatter : Prop :=
  ∀ (w w' : Word) (i : Instr), decodeWord w = some i → w' &&& usedBits i = w &&& usedBits i → decodeWord w' = some i

/-- R73: a word decodes to an instruction of a row exactly when it has the row's fixed bits under the row's mask; so rows do not
overlap. Encodings: log entry 6. -/
def Obligations.DecodeByOpcodeMapRow : Prop :=
  ∀ (w : Word) (j : Instr), w &&& (rowOf j).1 = (rowOf j).2 ↔ ∃ i, decodeWord w = some i ∧ rowOf i = rowOf j

/-- R72: the unknown words are exactly those of its table, for groups 0x0, 0x8, 0xE and 0xF. Encodings: log entry 6. -/
def Obligations.UnknownWordsExactly : Prop :=
  ∀ w : Word, decodeWord w = none ↔
    (w.toNat / 4096 = 0x0 ∧ w.toNat % 256 ∉ [0xE0, 0xEE]) ∨
    (w.toNat / 4096 = 0x8 ∧ w.toNat % 16 ∈ [0x8, 0x9, 0xA, 0xB, 0xC, 0xD, 0xF]) ∨
    (w.toNat / 4096 = 0xE ∧ w.toNat % 256 ∉ [0x9E, 0xA1]) ∨
    (w.toNat / 4096 = 0xF ∧ w.toNat % 256 ∉ [0x07, 0x0A, 0x15, 0x18, 0x1E, 0x29, 0x33, 0x55, 0x65])

/-- R73, R77: a few words of each family, written out from the rows of the map. Encodings: log entry 6. -/
def Obligations.SampleWordsDecode : Prop :=
  decodeWord 0x632A = some (.loadImm 3 0x2A) ∧ decodeWord 0xD015 = some (.drawSprite 0 1 5) ∧
  decodeWord 0x1200 = some (.jump 0x200) ∧ decodeWord 0x05E0 = some .clearScreen ∧ decodeWord 0x512F = some (.skipEqReg 1 2) ∧
  decodeWord 0x8126 = some (.shiftRight 1) ∧ decodeWord 0xE2A1 = some (.skipIfNotKey 2) ∧ decodeWord 0xF50A = some (.waitKey 5) ∧
  decodeWord 0xF233 = some (.storeBcd 2) ∧ decodeWord 0x0000 = none ∧ decodeWord 0x8128 = none

-- ==== reset, invariant, step ====

/-- R27: every piece of state after initialize or reset; `Config.font` is the parameter FONT, whatever its bytes are. -/
def Obligations.ResetValues : Prop :=
  (∀ r : Reg, State.reset.reg r = 0) ∧ State.reset.i = 0 ∧ State.reset.pc = 512 ∧ State.reset.sp = 0 ∧
  (∀ k : Fin 16, State.reset.stack.get k = 0) ∧ State.reset.dt = 0 ∧ State.reset.st = 0 ∧
  (∀ a : Nat, a < 80 → State.reset.mem.read a = Config.font.getD a 0) ∧
  (∀ a : Nat, 80 ≤ a → a < 4096 → State.reset.mem.read a = 0) ∧
  (∀ c : Nat, c < 2048 → State.reset.disp.cell c = false) ∧ (∀ k : Fin 16, State.reset.keyDown k = false) ∧ State.reset.ir = 0

/-- The invariant holds at reset. -/
def Obligations.ResetMeetsInvariant : Prop := Inv State.reset

/-- R15, R16, R41: from every state with canonical memory, `PC` at most 4350 and stack slots at most 4096, a step gives such a state.
The bounds are the spec's derivation in R15. -/
def Obligations.StepKeepsInvariant : Prop := ∀ s t : State, Inv s → step s = .next t → Inv t

/-- R60, R200: a step never stops the machine: it answers a next state in every state, reachable or not. -/
def Obligations.StepAlwaysAnswers : Prop := ∀ s : State, ∃ t, step s = .next t

/-- R60: where `PC` can fetch and the two bytes there decode to `i`, a step is: `IR` becomes the word, `PC` moves past it, the report is
cleared, the body of `i` runs, both timers count down. -/
def Obligations.StepRunsTheDecodedInstruction : Prop :=
  ∀ (s : State) (i : Instr), s.pc.toNat ≤ 4094 →
    decode [s.mem.read s.pc.toNat, s.mem.read (s.pc.toNat + 1)] = .instr i [] →
    step s =
      match exec i { s with ir := wordOfBytes (s.mem.read s.pc.toNat) (s.mem.read (s.pc.toNat + 1)), pc := s.pc + 2, report := .none } with
      | .next u => .next { u with dt := tickTimer u.dt, st := tickTimer u.st }
      | .fault r => .fault r
      | .refused r => .refused r

/-- R204: a fetched word that no row matches: `IR` holds it, `PC` has advanced by 2, the timers are decremented, the word is
reported, and nothing else changes. -/
def Obligations.UnknownWordStep : Prop :=
  ∀ s : State, s.pc.toNat ≤ 4094 → decodeWord s.wordAtPc = none →
    ∃ t, step s = .next t ∧ t.ir = s.wordAtPc ∧ t.pc.toNat = s.pc.toNat + 2 ∧ t.dt.toNat = s.dt.toNat - 1 ∧
      t.st.toNat = s.st.toNat - 1 ∧ t.report = .unknownInstruction s.wordAtPc ∧
      SameExcept [.ir, .pc, .delay, .sound, .report] s t

/-- R61, R202: halted, every step from then on changes no state and reports Halted with `PC`. That the timers stand still too is the
spec's resolution 90_conflicts.md C5 and its own decision D12 (log entry 16). -/
def Obligations.HaltedForEver : Prop :=
  ∀ (s : State) (k : Nat), 4096 ≤ s.pc.toNat → Sys2Proof.core.run (k + 1) s = .next { s with report := .halted s.pc }

/-- R62, R203: at `PC = 4095` every step from then on changes no state and reports FetchOutOfRange. The spec's own decision D2
(log entry 7). -/
def Obligations.LastAddressNeverFetches : Prop :=
  ∀ (s : State) (k : Nat), s.pc.toNat = 4095 → Sys2Proof.core.run (k + 1) s = .next { s with report := .fetchOutOfRange s.pc }

/-- R63: in every step that fetches, whatever the word does, `IR` ends as the byte at `PC` times 256 plus the byte at `PC + 1`. -/
def Obligations.IrHoldsTheFetchedWord : Prop :=
  ∀ s t : State, s.pc.toNat ≤ 4094 → step s = .next t →
    t.ir.toNat = (s.mem.read s.pc.toNat).toNat * 256 + (s.mem.read (s.pc.toNat + 1)).toNat

/-- R212: in every step that fetches, whichever instruction runs, each timer loses 1 and stays at 0; a timer set in the step is
decremented in it; on a step that does not fetch neither moves (D12, log entry 16). -/
def Obligations.TimersCountEveryFetchedStep : Prop :=
  ∀ s t : State, step s = .next t →
    t.dt.toNat =
      (if s.pc.toNat ≤ 4094 then
        match decodeWord s.wordAtPc with
        | some (.setDelay x) => (s.reg x).toNat - 1
        | _ => s.dt.toNat - 1
      else s.dt.toNat) ∧
    t.st.toNat =
      (if s.pc.toNat ≤ 4094 then
        match decodeWord s.wordAtPc with
        | some (.setSound x) => (s.reg x).toNat - 1
        | _ => s.st.toNat - 1
      else s.st.toNat)

/-- R23, R200: `IR` and the report are outputs: a step that fetches does the same whatever they held before it. -/
def Obligations.IrAndReportAreNeverRead : Prop :=
  ∀ (s t : State) (c : Report) (w : Word), s.pc.toNat ≤ 4094 → step s = .next t → step { s with report := c, ir := w } = .next t

/-- R80, R201: a step that fetched a known word and reports a condition has written `IR`, `PC` and the timers as every fetching step
does, and nothing else. -/
def Obligations.ConditionLeavesNoPartialEffect : Prop :=
  ∀ (s t : State) (i : Instr), s.pc.toNat ≤ 4094 → decodeWord s.wordAtPc = some i → step s = .next t → t.report ≠ .none →
    t.ir = s.wordAtPc ∧ t.pc.toNat = s.pc.toNat + 2 ∧ t.dt.toNat = s.dt.toNat - 1 ∧ t.st.toNat = s.st.toNat - 1 ∧
      SameExcept [.ir, .pc, .delay, .sound, .report] s t

/-- R201, R205 to R208: which instruction raises which condition, on which operands, with which information, and that every other body
raises none. The conditions 4 to 7 are the spec's own decisions D3 to D5 (log entries 8 to 10). -/
def Obligations.ConditionsAsTabled : Prop :=
  ∀ (i : Instr) (s t : State), s.report = .none → exec i s = .next t → t.report = conditionOf i s

-- ==== what no instruction does ====

/-- R12, R19: a body writes no general register but its destination field, `VF` where it writes a flag, and `V[0..=x]` for load-regs. -/
def Obligations.RegistersWrittenOnlyAsNamed : Prop :=
  ∀ (i : Instr) (s t : State) (r : Reg), exec i s = .next t → mayWrite i r = false → t.reg r = s.reg r

/-- R20, R45, R50, R164, R22, R16: only store-bcd and store-regs write memory, only clear-screen and draw-sprite write display cells, only
call writes a stack slot, and nothing writes the keypad latch. -/
def Obligations.StoresWrittenOnlyByTheirInstructions : Prop :=
  ∀ (i : Instr) (s t : State), exec i s = .next t →
    ((∀ x, i ≠ .storeBcd x) → (∀ x, i ≠ .storeRegs x) → ∀ a : Nat, t.mem.read a = s.mem.read a) ∧
    (i ≠ .clearScreen → (∀ x y n, i ≠ .drawSprite x y n) → ∀ c : Nat, t.disp.cell c = s.disp.cell c) ∧
    ((∀ nnn, i ≠ .call nnn) → ∀ k : Fin 16, t.stack.get k = s.stack.get k) ∧ (∀ k : Fin 16, t.keyDown k = s.keyDown k)

/-- R13, R17, R64, R214, R23: `I`, `SP`, `PC`, `DT`, `ST` are written only by the instructions their rules name, and no body writes `IR`. -/
def Obligations.SpecialRegistersWrittenOnlyAsNamed : Prop :=
  ∀ (i : Instr) (s t : State), exec i s = .next t →
    ((∀ nnn, i ≠ .setIndex nnn) → (∀ x, i ≠ .addToIndex x) → (∀ x, i ≠ .fontChar x) → t.i = s.i) ∧
    ((∀ nnn, i ≠ .call nnn) → i ≠ .ret → t.sp = s.sp) ∧ (mayMovePc i = false → t.pc = s.pc) ∧
    ((∀ x, i ≠ .setDelay x) → t.dt = s.dt) ∧ ((∀ x, i ≠ .setSound x) → t.st = s.st) ∧ t.ir = s.ir

-- ==== control transfer ====

/-- R101: jump. Encodings: log entry 6. -/
def Obligations.JumpSetsPc : Prop :=
  ∀ nnn : Addr, DecodesTo (0x1000 + nnn.toNat) (.jump nnn) ∧
    ∀ s : State, ∃ t, exec (.jump nnn) s = .next t ∧ t.pc.toNat = nnn.toNat ∧ SameExcept [.pc] s t

/-- R102: call pushes the address after itself and jumps; with 16 addresses on the stack it does nothing and reports StackOverflow
(the spec's own decision D5, log entry 10). Encodings: log entry 6. -/
def Obligations.CallPushesAndJumps : Prop :=
  ∀ nnn : Addr, DecodesTo (0x2000 + nnn.toNat) (.call nnn) ∧
    ∀ s : State,
      (s.sp.val < 16 → ∃ t, exec (.call nnn) s = .next t ∧ t.pc.toNat = nnn.toNat ∧ t.sp.val = s.sp.val + 1 ∧
        (∀ k : Fin 16, t.stack.get k = if k.val = s.sp.val then s.pc else s.stack.get k) ∧ SameExcept [.pc, .sp, .stack] s t) ∧
      (s.sp.val = 16 → exec (.call nnn) s = .next { s with report := .stackOverflow s.pc })

/-- R100: return pops the address into `PC` with nothing added (90_conflicts.md C1, D23, log entry 18) and leaves the slot; with an
empty stack it does nothing and reports StackUnderflow (D5, log entry 10). Encodings: log entry 6. -/
def Obligations.ReturnPops : Prop :=
  ∀ h : Nat, h < 16 → DecodesTo (h * 256 + 0xEE) .ret ∧
    ∀ s : State,
      (0 < s.sp.val → ∃ t, exec .ret s = .next t ∧ t.sp.val = s.sp.val - 1 ∧
        (∀ k : Fin 16, k.val = s.sp.val - 1 → t.pc = s.stack.get k) ∧ SameExcept [.pc, .sp] s t) ∧
      (s.sp.val = 0 → exec .ret s = .next { s with report := .stackUnderflow s.pc })

/-- R100 and R102 together (90_conflicts.md C1): a call, then a return with the stack as the call left it, brings `PC` to the address
after the call and `SP` to its value before it. -/
def Obligations.CallThenReturnComesBack : Prop :=
  ∀ (nnn : Addr) (s t u : State), s.sp.val < 16 → exec (.call nnn) s = .next t → u.sp = t.sp → u.stack = t.stack →
    ∃ v, exec .ret u = .next v ∧ v.pc = s.pc ∧ v.sp = s.sp

/-- R103, R104: the skips on an immediate. Encodings: log entry 6. -/
def Obligations.SkipsOnImmediate : Prop :=
  ∀ (x : Reg) (kk : Byte),
    DecodesTo (0x3000 + x.val * 256 + kk.toNat) (.skipEqImm x kk) ∧ DecodesTo (0x4000 + x.val * 256 + kk.toNat) (.skipNeImm x kk) ∧
    ∀ s : State,
      (∃ t, exec (.skipEqImm x kk) s = .next t ∧ t.pc = (if s.reg x = kk then s.pc + 2 else s.pc) ∧ SameExcept [.pc] s t) ∧
      (∃ t, exec (.skipNeImm x kk) s = .next t ∧ t.pc = (if s.reg x = kk then s.pc else s.pc + 2) ∧ SameExcept [.pc] s t)

/-- R105, R106: the skips on two registers; the word's low nibble `h` is ignored. Encodings: log entry 6. -/
def Obligations.SkipsOnRegisters : Prop :=
  ∀ (x y : Reg) (h : Nat), h < 16 →
    DecodesTo (0x5000 + x.val * 256 + y.val * 16 + h) (.skipEqReg x y) ∧
    DecodesTo (0x9000 + x.val * 256 + y.val * 16 + h) (.skipNeReg x y) ∧
    ∀ s : State,
      (∃ t, exec (.skipEqReg x y) s = .next t ∧ t.pc = (if s.reg x = s.reg y then s.pc + 2 else s.pc) ∧ SameExcept [.pc] s t) ∧
      (∃ t, exec (.skipNeReg x y) s = .next t ∧ t.pc = (if s.reg x = s.reg y then s.pc else s.pc + 2) ∧ SameExcept [.pc] s t)

/-- R107: jump-offset adds `V[0]` and nothing reduces the sum (the spec's own decision D22, log entry 17). Encodings: log entry 6. -/
def Obligations.JumpOffsetAddsV0 : Prop :=
  ∀ nnn : Addr, DecodesTo (0xB000 + nnn.toNat) (.jumpOffset nnn) ∧
    ∀ s : State, ∃ t, exec (.jumpOffset nnn) s = .next t ∧ t.pc.toNat = nnn.toNat + (s.reg 0).toNat ∧ SameExcept [.pc] s t

-- ==== registers, arithmetic, logic ====

/-- R120, R121, R122: load-imm, add-imm (wraps, no flag), reg-to-reg. Encodings: log entry 6. -/
def Obligations.LoadAddAndMove : Prop :=
  ∀ (x y : Reg) (kk : Byte),
    DecodesTo (0x6000 + x.val * 256 + kk.toNat) (.loadImm x kk) ∧ DecodesTo (0x7000 + x.val * 256 + kk.toNat) (.addImm x kk) ∧
    DecodesTo (0x8000 + x.val * 256 + y.val * 16) (.regToReg x y) ∧
    ∀ s : State,
      (∃ t, exec (.loadImm x kk) s = .next t ∧ t.reg x = kk ∧ (∀ r, r ≠ x → t.reg r = s.reg r) ∧ SameExcept [.regs] s t) ∧
      (∃ t, exec (.addImm x kk) s = .next t ∧ (t.reg x).toNat = ((s.reg x).toNat + kk.toNat) % 256 ∧
        (∀ r, r ≠ x → t.reg r = s.reg r) ∧ SameExcept [.regs] s t) ∧
      (∃ t, exec (.regToReg x y) s = .next t ∧ t.reg x = s.reg y ∧ (∀ r, r ≠ x → t.reg r = s.reg r) ∧ SameExcept [.regs] s t)

/-- R123, R124, R125: or, and, xor act bit by bit and write no flag (that `VF` is left alone is the spec's derivation in R123).
Encodings: log entry 6. -/
def Obligations.LogicBitByBit : Prop :=
  ∀ x y : Reg,
    DecodesTo (0x8001 + x.val * 256 + y.val * 16) (.orReg x y) ∧ DecodesTo (0x8002 + x.val * 256 + y.val * 16) (.andReg x y) ∧
    DecodesTo (0x8003 + x.val * 256 + y.val * 16) (.xorReg x y) ∧
    ∀ s : State,
      (∃ t, exec (.orReg x y) s = .next t ∧ (∀ b, (t.reg x).getLsbD b = ((s.reg x).getLsbD b || (s.reg y).getLsbD b)) ∧
        (∀ r, r ≠ x → t.reg r = s.reg r) ∧ SameExcept [.regs] s t) ∧
      (∃ t, exec (.andReg x y) s = .next t ∧ (∀ b, (t.reg x).getLsbD b = ((s.reg x).getLsbD b && (s.reg y).getLsbD b)) ∧
        (∀ r, r ≠ x → t.reg r = s.reg r) ∧ SameExcept [.regs] s t) ∧
      (∃ t, exec (.xorReg x y) s = .next t ∧ (∀ b, (t.reg x).getLsbD b = ((s.reg x).getLsbD b ^^ (s.reg y).getLsbD b)) ∧
        (∀ r, r ≠ x → t.reg r = s.reg r) ∧ SameExcept [.regs] s t)

/-- R126: add-reg wraps and sets `VF` exactly when the sum exceeds 255; with `x = 15` the flag stays (R79, the spec's own decision D7,
log entry 12). Encodings: log entry 6. -/
def Obligations.AddRegSumAndCarry : Prop :=
  ∀ x y : Reg, DecodesTo (0x8004 + x.val * 256 + y.val * 16) (.addReg x y) ∧
    ∀ s : State, ∃ t, exec (.addReg x y) s = .next t ∧
      (t.reg 15).toNat = (if 255 < (s.reg x).toNat + (s.reg y).toNat then 1 else 0) ∧
      (x ≠ 15 → (t.reg x).toNat = ((s.reg x).toNat + (s.reg y).toNat) % 256) ∧
      (∀ r, r ≠ x → r ≠ 15 → t.reg r = s.reg r) ∧ SameExcept [.regs] s t

/-- R127, R129: the subtractions wrap and set `VF` exactly when nothing is borrowed; with `x = 15` the difference stays (R79, D7,
log entry 12). Encodings: log entry 6. -/
def Obligations.SubtractAndNoBorrow : Prop :=
  ∀ x y : Reg,
    DecodesTo (0x8005 + x.val * 256 + y.val * 16) (.subRegFwd x y) ∧ DecodesTo (0x8007 + x.val * 256 + y.val * 16) (.subRegRev x y) ∧
    ∀ s : State,
      (∃ t, exec (.subRegFwd x y) s = .next t ∧ (t.reg x).toNat = ((s.reg x).toNat + 256 - (s.reg y).toNat) % 256 ∧
        (x ≠ 15 → (t.reg 15).toNat = if (s.reg y).toNat ≤ (s.reg x).toNat then 1 else 0) ∧
        (∀ r, r ≠ x → r ≠ 15 → t.reg r = s.reg r) ∧ SameExcept [.regs] s t) ∧
      (∃ t, exec (.subRegRev x y) s = .next t ∧ (t.reg x).toNat = ((s.reg y).toNat + 256 - (s.reg x).toNat) % 256 ∧
        (x ≠ 15 → (t.reg 15).toNat = if (s.reg x).toNat ≤ (s.reg y).toNat then 1 else 0) ∧
        (∀ r, r ≠ x → r ≠ 15 → t.reg r = s.reg r) ∧ SameExcept [.regs] s t)

/-- R128, R130: the shifts move `V[x]` by one place and put the bit shifted out into `VF`; bits 7:4 of the word are ignored and no other
register is read; with `x = 15` the shifted value stays (R79, D7, log entry 12). Encodings: log entry 6. -/
def Obligations.ShiftsByOne : Prop :=
  ∀ (x : Reg) (h : Nat), h < 16 →
    DecodesTo (0x8006 + x.val * 256 + h * 16) (.shiftRight x) ∧ DecodesTo (0x800E + x.val * 256 + h * 16) (.shiftLeft x) ∧
    ∀ s : State,
      (∃ t, exec (.shiftRight x) s = .next t ∧ (t.reg x).toNat = (s.reg x).toNat / 2 ∧
        (x ≠ 15 → (t.reg 15).toNat = (s.reg x).toNat % 2) ∧ (∀ r, r ≠ x → r ≠ 15 → t.reg r = s.reg r) ∧ SameExcept [.regs] s t) ∧
      (∃ t, exec (.shiftLeft x) s = .next t ∧ (t.reg x).toNat = (s.reg x).toNat * 2 % 256 ∧
        (x ≠ 15 → (t.reg 15).toNat = (s.reg x).toNat / 128) ∧ (∀ r, r ≠ x → r ≠ 15 → t.reg r = s.reg r) ∧ SameExcept [.regs] s t)

/-- R131: random-and stores the random byte of this execution under `kk`, and the next execution draws anew. The byte is the free value
`Config.rnd` (the spec's own decision D9, log entry 1); the statement holds whatever it is. Encodings: log entry 6. -/
def Obligations.RandomAndMasksTheByte : Prop :=
  ∀ (x : Reg) (kk : Byte), DecodesTo (0xC000 + x.val * 256 + kk.toNat) (.randomAnd x kk) ∧
    ∀ s : State, ∃ t, exec (.randomAnd x kk) s = .next t ∧
      (∀ b, (t.reg x).getLsbD b = ((Config.rnd s.rndDraws).getLsbD b && kk.getLsbD b)) ∧
      (∀ r, r ≠ x → t.reg r = s.reg r) ∧ t.rndDraws = s.rndDraws + 1 ∧ SameExcept [.regs, .draws] s t

-- ==== index and memory ====

/-- R140: set-index. Encodings: log entry 6. -/
def Obligations.SetIndexLoadsI : Prop :=
  ∀ nnn : Addr, DecodesTo (0xA000 + nnn.toNat) (.setIndex nnn) ∧
    ∀ s : State, ∃ t, exec (.setIndex nnn) s = .next t ∧ t.i = nnn ∧ SameExcept [.index] s t

/-- R141: add-to-index sets `VF` exactly when the sum exceeds 0xFFF and keeps the sum modulo 4096 (the spec's own decision D6, log
entry 11); with `x = 15` the old `VF` is the addend (D7, log entry 12). Encodings: log entry 6. -/
def Obligations.AddToIndexSumAndCarry : Prop :=
  ∀ x : Reg, DecodesTo (0xF01E + x.val * 256) (.addToIndex x) ∧
    ∀ s : State, ∃ t, exec (.addToIndex x) s = .next t ∧ t.i.toNat = (s.i.toNat + (s.reg x).toNat) % 4096 ∧
      (t.reg 15).toNat = (if 0xFFF < s.i.toNat + (s.reg x).toNat then 1 else 0) ∧
      (∀ r, r ≠ 15 → t.reg r = s.reg r) ∧ SameExcept [.regs, .index] s t

/-- R142: font-char multiplies all 8 bits of the register by 5 (the spec's own decision D22, log entry 17). Encodings: log entry 6. -/
def Obligations.FontCharTimesFive : Prop :=
  ∀ x : Reg, DecodesTo (0xF029 + x.val * 256) (.fontChar x) ∧
    ∀ s : State, ∃ t, exec (.fontChar x) s = .next t ∧ t.i.toNat = (s.reg x).toNat * 5 ∧ SameExcept [.index] s t

/-- R143: store-bcd writes the three digits to `I`, `I + 1`, `I + 2` and no other byte, whenever the range ends inside memory.
Encodings: log entry 6. -/
def Obligations.StoreBcdWritesDigits : Prop :=
  ∀ x : Reg, DecodesTo (0xF033 + x.val * 256) (.storeBcd x) ∧
    ∀ s : State, s.mem.wf = true → s.i.toNat + 3 ≤ 4096 →
      ∃ t, exec (.storeBcd x) s = .next t ∧ (t.mem.read s.i.toNat).toNat = (s.reg x).toNat / 100 ∧
        (t.mem.read (s.i.toNat + 1)).toNat = (s.reg x).toNat / 10 % 10 ∧ (t.mem.read (s.i.toNat + 2)).toNat = (s.reg x).toNat % 10 ∧
        (∀ a : Nat, ¬ (s.i.toNat ≤ a ∧ a < s.i.toNat + 3) → t.mem.read a = s.mem.read a) ∧ SameExcept [.memory] s t

/-- R144: store-regs writes `V[0]` to `V[x]` to the bytes from `I` on and no other byte, `I` unchanged, whenever the range ends inside
memory. Encodings: log entry 6. -/
def Obligations.StoreRegsCopiesOut : Prop :=
  ∀ x : Reg, DecodesTo (0xF055 + x.val * 256) (.storeRegs x) ∧
    ∀ s : State, s.mem.wf = true → s.i.toNat + x.val + 1 ≤ 4096 →
      ∃ t, exec (.storeRegs x) s = .next t ∧ (∀ k : Reg, k ≤ x → t.mem.read (s.i.toNat + k.val) = s.reg k) ∧
        (∀ a : Nat, ¬ (s.i.toNat ≤ a ∧ a ≤ s.i.toNat + x.val) → t.mem.read a = s.mem.read a) ∧ SameExcept [.memory] s t

/-- R145: load-regs copies the bytes from `I` on into `V[0]` to `V[x]`; registers above `x` and `I` are unchanged. Encodings: log entry 6. -/
def Obligations.LoadRegsCopiesIn : Prop :=
  ∀ x : Reg, DecodesTo (0xF065 + x.val * 256) (.loadRegs x) ∧
    ∀ s : State, s.i.toNat + x.val + 1 ≤ 4096 →
      ∃ t, exec (.loadRegs x) s = .next t ∧ (∀ k : Reg, k ≤ x → t.reg k = s.mem.read (s.i.toNat + k.val)) ∧
        (∀ k : Reg, x < k → t.reg k = s.reg k) ∧ SameExcept [.regs] s t

/-- R42, R207: the four data ranges, refused as a whole when they pass 4095: no write but the report, which carries the last address
(the spec's own decision D3, log entry 8). -/
def Obligations.RangePastEndIsRefused : Prop :=
  ∀ (x y : Reg) (n : Nat) (s : State),
    (4096 < s.i.toNat + 3 → exec (.storeBcd x) s = .next { s with report := .addressOutOfRange (s.i.toNat + 2) }) ∧
    (4096 < s.i.toNat + x.val + 1 →
      exec (.storeRegs x) s = .next { s with report := .addressOutOfRange (s.i.toNat + x.val) } ∧
      exec (.loadRegs x) s = .next { s with report := .addressOutOfRange (s.i.toNat + x.val) }) ∧
    (0 < n → 4096 < s.i.toNat + n →
      exec (.drawSprite x y n) s = .next { s with report := .addressOutOfRange (s.i.toNat + n - 1) })

/-- R55: a byte written by store-regs, store-bcd or loadProgram is seen by the very next fetch of its address: where it lies at the next
fetch address it becomes the high byte of `IR` in the next step, one address further the low byte. -/
def Obligations.StoredWordIsFetchedNext : Prop :=
  ∀ s : State, s.mem.wf = true →
    (∀ x : Reg, s.pc.toNat ≤ 4092 → decodeWord s.wordAtPc = some (.storeRegs x) → s.i.toNat + x.val + 1 ≤ 4096 →
      ∃ t u, step s = .next t ∧ step t = .next u ∧ ∀ k : Reg, k ≤ x →
        (s.i.toNat + k.val = s.pc.toNat + 2 → highByte u.ir = s.reg k) ∧
        (s.i.toNat + k.val = s.pc.toNat + 3 → lowByte u.ir = s.reg k)) ∧
    (∀ x : Reg, s.pc.toNat ≤ 4092 → decodeWord s.wordAtPc = some (.storeBcd x) → s.i.toNat + 3 ≤ 4096 →
      ∃ t u, step s = .next t ∧ step t = .next u ∧ ∀ k : Nat, k < 3 →
        (s.i.toNat + k = s.pc.toNat + 2 →
          (highByte u.ir).toNat = [(s.reg x).toNat / 100, (s.reg x).toNat / 10 % 10, (s.reg x).toNat % 10].getD k 0) ∧
        (s.i.toNat + k = s.pc.toNat + 3 →
          (lowByte u.ir).toNat = [(s.reg x).toNat / 100, (s.reg x).toNat / 10 % 10, (s.reg x).toNat % 10].getD k 0)) ∧
    (∀ bytes : List Byte, s.pc.toNat ≤ 4094 → bytes.length ≤ 3584 →
      ∃ u, step (loadProgram bytes.length bytes s).2 = .next u ∧ ∀ j : Nat, j < bytes.length →
        (512 + j = s.pc.toNat → highByte u.ir = bytes.getD j 0) ∧ (512 + j = s.pc.toNat + 1 → lowByte u.ir = bytes.getD j 0))

-- ==== display ====

/-- R160: clear-screen. Encodings: log entry 6. -/
def Obligations.ClearScreenZeroesAllCells : Prop :=
  ∀ h : Nat, h < 16 → DecodesTo (h * 256 + 0xE0) .clearScreen ∧
    ∀ s : State, ∃ t, exec .clearScreen s = .next t ∧ (∀ c : Nat, c < 2048 → t.disp.cell c = false) ∧ SameExcept [.display] s t

/-- R161 to R163: draw-sprite, cell by cell: a cell on the screen changes exactly when the sprite row that falls on its display row has a
1 in its column, clipped on each axis by itself and with the start coordinates as they are; `VF` is 1 when a cell went from 1 to 0,
else 0. Cell numbering, validation of clipped rows and clipping are the spec's own decisions D8, D18, D22 (log entries 13, 17, 19); that
register 15 may be `x` or `y` is D7 (log entry 12). Encodings: log entry 6. -/
def Obligations.DrawSpriteCellByCell : Prop :=
  ∀ (x y : Reg) (n : Nat), (n < 16 → DecodesTo (0xD000 + x.val * 256 + y.val * 16 + n) (.drawSprite x y n)) ∧
    ∀ s : State, (n = 0 ∨ s.i.toNat + n ≤ 4096) →
      ∃ t, exec (.drawSprite x y n) s = .next t ∧
        (∀ cx cy : Nat, cx < 64 → cy < 32 →
          t.disp.cell (cy * 64 + cx) =
            (s.disp.cell (cy * 64 + cx) ^^
              (decide ((s.reg x).toNat ≤ cx ∧ cx < (s.reg x).toNat + 8 ∧ (s.reg y).toNat ≤ cy ∧ cy < (s.reg y).toNat + n) &&
                (s.mem.read (s.i.toNat + (cy - (s.reg y).toNat))).getLsbD (7 - (cx - (s.reg x).toNat))))) ∧
        ((∃ c : Nat, c < 2048 ∧ s.disp.cell c = true ∧ t.disp.cell c = false) → t.reg 15 = 1) ∧
        ((∀ c : Nat, c < 2048 → s.disp.cell c = true → t.disp.cell c = true) → t.reg 15 = 0) ∧
        (∀ r, r ≠ 15 → t.reg r = s.reg r) ∧ SameExcept [.regs, .display] s t

/-- R161: the same sprite drawn twice at the same place leaves the display as it was. `x` and `y` are not 15, since the first draw writes
`VF`, so a place taken from `VF` is not the same place again. -/
def Obligations.DrawTwiceRestoresTheDisplay : Prop :=
  ∀ (x y : Reg) (n : Nat) (s t : State), x ≠ 15 → y ≠ 15 → exec (.drawSprite x y n) s = .next t →
    ∃ u, exec (.drawSprite x y n) t = .next u ∧ ∀ c : Nat, c < 2048 → u.disp.cell c = s.disp.cell c

-- ==== keypad and timers ====

/-- R170, R171: the skips on a key; a register value above 15 does not skip and is reported (R208, the spec's own decision D4, log
entry 9). Encodings: log entry 6. -/
def Obligations.SkipsOnKey : Prop :=
  ∀ x : Reg, DecodesTo (0xE09E + x.val * 256) (.skipIfKey x) ∧ DecodesTo (0xE0A1 + x.val * 256) (.skipIfNotKey x) ∧
    ∀ s : State,
      (∀ k : Fin 16, (s.reg x).toNat = k.val →
        (∃ t, exec (.skipIfKey x) s = .next t ∧ t.pc = (if s.keyDown k then s.pc + 2 else s.pc) ∧ SameExcept [.pc] s t) ∧
        (∃ t, exec (.skipIfNotKey x) s = .next t ∧ t.pc = (if s.keyDown k then s.pc else s.pc + 2) ∧ SameExcept [.pc] s t)) ∧
      (15 < (s.reg x).toNat →
        exec (.skipIfKey x) s = .next { s with report := .keyIndexOutOfRange (s.reg x) } ∧
        exec (.skipIfNotKey x) s = .next { s with report := .keyIndexOutOfRange (s.reg x) })

/-- R172, R174, R175: read-delay, set-delay, set-sound, as bodies; the step's own decrement is TimersCountEveryFetchedStep.
Encodings: log entry 6. -/
def Obligations.TimerTransfers : Prop :=
  ∀ x : Reg, DecodesTo (0xF007 + x.val * 256) (.readDelay x) ∧ DecodesTo (0xF015 + x.val * 256) (.setDelay x) ∧
    DecodesTo (0xF018 + x.val * 256) (.setSound x) ∧
    ∀ s : State,
      (∃ t, exec (.readDelay x) s = .next t ∧ t.reg x = s.dt ∧ (∀ r, r ≠ x → t.reg r = s.reg r) ∧ SameExcept [.regs] s t) ∧
      (∃ t, exec (.setDelay x) s = .next t ∧ t.dt = s.reg x ∧ SameExcept [.delay] s t) ∧
      (∃ t, exec (.setSound x) s = .next t ∧ t.st = s.reg x ∧ SameExcept [.sound] s t)

/-- R173: wait-key stores the least pressed key, or goes back to its own address. Encodings: log entry 6. -/
def Obligations.WaitKeyTakesTheLeastKey : Prop :=
  ∀ x : Reg, DecodesTo (0xF00A + x.val * 256) (.waitKey x) ∧
    ∀ s : State,
      (∀ k : Fin 16, s.keyDown k = true → (∀ j : Fin 16, j < k → s.keyDown j = false) →
        ∃ t, exec (.waitKey x) s = .next t ∧ (t.reg x).toNat = k.val ∧ (∀ r, r ≠ x → t.reg r = s.reg r) ∧ SameExcept [.regs] s t) ∧
      ((∀ k : Fin 16, s.keyDown k = false) →
        ∃ t, exec (.waitKey x) s = .next t ∧ t.pc = s.pc - 2 ∧ SameExcept [.pc] s t)

/-- R24, R176: (a) a waiting machine executes no other instruction, however many steps are taken: it is still waiting at the same `PC`
with registers, memory and display as they were; (b) once `setInput` has marked a key pressed, exactly one step stores the least such
key and goes on. -/
def Obligations.WaitingUntilAKeyIsPressed : Prop :=
  ∀ (x : Reg) (s : State), Waiting x s →
    (∀ k : Nat, ∃ t, Sys2Proof.core.run k s = .next t ∧ Waiting x t ∧ SameExcept [.ir, .delay, .sound, .report] s t) ∧
    (∀ (keys : Vector Nat 16) (k : Fin 16), keys.get k ≠ 0 → (∀ j : Fin 16, j < k → keys.get j = 0) →
      ∃ t, step (setInput keys s) = .next t ∧ (t.reg x).toNat = k.val ∧ t.pc.toNat = s.pc.toNat + 2 ∧
        (∀ r, r ≠ x → t.reg r = s.reg r) ∧ SameExcept [.regs, .pc, .keys, .ir, .delay, .sound, .report] s t)

-- ==== host operations ====

/-- R243, R244, R246: a load of exactly the declared bytes succeeds iff they are at most 3584; it then returns their number, puts byte `j`
at 512 + `j` and changes nothing else; a longer one fails with CapacityExceeded and changes nothing at all. -/
def Obligations.LoadProgramAllOrNothing : Prop :=
  ∀ (bytes : List Byte) (s : State), s.mem.wf = true →
    (bytes.length ≤ 3584 →
      ∃ t, loadProgram bytes.length bytes s = (.written bytes.length, t) ∧
        (∀ j : Nat, j < bytes.length → t.mem.read (512 + j) = bytes.getD j 0) ∧
        (∀ a : Nat, ¬ (512 ≤ a ∧ a < 512 + bytes.length) → t.mem.read a = s.mem.read a) ∧ SameExcept [.memory] s t) ∧
    (3584 < bytes.length → loadProgram bytes.length bytes s = (.capacityExceeded, s))

/-- R245: a load whose bytes are not as many as declared fails and changes nothing: with IoFailure where the declared length is within
the capacity, and where it is beyond it with IoFailure or CapacityExceeded, which of the two being a free value (log entry 22). -/
def Obligations.ShortReadIsRefused : Prop :=
  ∀ (declared : Nat) (bytes : List Byte) (s : State), bytes.length ≠ declared →
    (declared ≤ 3584 → loadProgram declared bytes s = (.ioFailure, s)) ∧
    (3584 < declared →
      loadProgram declared bytes s = (.ioFailure, s) ∨ loadProgram declared bytes s = (.capacityExceeded, s))

/-- R217: setInput replaces the whole latch and changes nothing else. -/
def Obligations.SetInputReplacesTheLatch : Prop :=
  ∀ (keys : Vector Nat 16) (s : State),
    (∀ k : Fin 16, (setInput keys s).keyDown k = decide (keys.get k ≠ 0)) ∧ SameExcept [.keys] s (setInput keys s)

/-- R240, R241: initialize and reset give the same machine, the one of R27, whatever the state was before. -/
def Obligations.ResetForgetsTheState : Prop :=
  ∀ s : State, getSnapshot (hostInitialize s) = getSnapshot State.reset ∧ getSnapshot (hostReset s) = getSnapshot State.reset

/-- R216: the display view has at cell `c` the byte 0 or 1 of `DISP[c]`, and reading it changes nothing. -/
def Obligations.DisplayViewShowsTheCells : Prop :=
  ∀ s : State, (∀ c : Fin 2048, ((getDisplay s).get c).toNat = if s.disp.cell c.val then 1 else 0) ∧ applyOp .opDisplay s = .next s

/-- R220: whatever the host does, in any order, the invariant is kept; a state that meets it never stops. -/
def Obligations.HostOperationsKeepInvariant : Prop :=
  ∀ (op : HostOp) (s : State), Inv s → ∃ t, applyOp op s = .next t ∧ Inv t
end

