-- ==== Sys2Proof/Laws/Decode.lean ====
section
/-!
SUPPORT. The fields of a word as numbers, and the fields of each format's encoding (30_encoding.md R65).
-/

namespace Sys2Proof

theorem toNat_groupOf (w : Word) : (groupOf w).toNat = w.toNat / 4096 := by
  have := w.isLt
  simp only [groupOf, BitVec.extractLsb'_toNat, Nat.shiftRight_eq_div_pow]
  omega

theorem val_xOf (w : Word) : (xOf w).val = w.toNat / 256 % 16 := by
  simp [xOf, Nat.shiftRight_eq_div_pow]

theorem val_yOf (w : Word) : (yOf w).val = w.toNat / 16 % 16 := by
  simp [yOf, Nat.shiftRight_eq_div_pow]

theorem nOf_eq (w : Word) : nOf w = w.toNat % 16 := by
  simp [nOf, BitVec.extractLsb'_toNat]

theorem toNat_kkOf (w : Word) : (kkOf w).toNat = w.toNat % 256 := by
  simp [kkOf, BitVec.extractLsb'_toNat]

theorem toNat_nnnOf (w : Word) : (nnnOf w).toNat = w.toNat % 4096 := by
  simp [nnnOf, BitVec.extractLsb'_toNat]

theorem toNat_lo4Of (w : Word) : (lo4Of w).toNat = w.toNat % 16 := by
  simp [lo4Of, BitVec.extractLsb'_toNat]

theorem toNat_lo8Of (w : Word) : (lo8Of w).toNat = w.toNat % 256 := by
  simp [lo8Of, BitVec.extractLsb'_toNat]

theorem toNat_wordOfBytes (hi lo : Byte) : (wordOfBytes hi lo).toNat = hi.toNat * 256 + lo.toNat := by
  have := lo.isLt
  simp only [wordOfBytes, BitVec.toNat_append]
  rw [Nat.shiftLeft_eq, ← Nat.shiftLeft_eq, ← Nat.shiftLeft_add_eq_or_of_lt lo.isLt, Nat.shiftLeft_eq]

/-- The bytes of a word, put together again in memory order, are the word (R47). -/
@[simp] theorem wordOfBytes_bytes (w : Word) : wordOfBytes (highByte w) (lowByte w) = w := by
  apply BitVec.eq_of_toNat_eq
  have := w.isLt
  rw [toNat_wordOfBytes]
  simp only [highByte, lowByte, BitVec.extractLsb'_toNat, Nat.shiftRight_eq_div_pow]
  omega

/-- The high byte of a word in memory order is the first byte (R47). -/
@[simp] theorem highByte_wordOfBytes (hi lo : Byte) : highByte (wordOfBytes hi lo) = hi := by
  apply BitVec.eq_of_toNat_eq
  have := hi.isLt
  have := lo.isLt
  simp only [highByte, BitVec.extractLsb'_toNat, toNat_wordOfBytes, Nat.shiftRight_eq_div_pow]
  omega

/-- The low byte of a word in memory order is the second byte (R47). -/
@[simp] theorem lowByte_wordOfBytes (hi lo : Byte) : lowByte (wordOfBytes hi lo) = lo := by
  apply BitVec.eq_of_toNat_eq
  have := lo.isLt
  simp only [lowByte, BitVec.extractLsb'_toNat, toNat_wordOfBytes, Nat.shiftRight_eq_div_pow]
  omega

@[simp] theorem toNat_regBits (r : Reg) : (regBits r).toNat = r.val := rfl

theorem toNat_encodeA (g : BitVec 4) (nnn : Addr) : (encodeA g nnn).toNat = g.toNat * 4096 + nnn.toNat := by
  simp only [encodeA, BitVec.toNat_append]
  rw [← Nat.shiftLeft_add_eq_or_of_lt nnn.isLt, Nat.shiftLeft_eq]

theorem toNat_encodeXK (g : BitVec 4) (x : Reg) (kk : Byte) : (encodeXK g x kk).toNat = g.toNat * 4096 + x.val * 256 + kk.toNat := by
  have h := (regBits x ++ kk).isLt
  simp only [encodeXK, BitVec.toNat_append] at h ⊢
  rw [← Nat.shiftLeft_add_eq_or_of_lt h, ← Nat.shiftLeft_add_eq_or_of_lt kk.isLt]
  simp only [Nat.shiftLeft_eq, toNat_regBits]
  omega

theorem toNat_encodeXS (g : BitVec 4) (x : Reg) (lo8 : Byte) : (encodeXS g x lo8).toNat = g.toNat * 4096 + x.val * 256 + lo8.toNat :=
  toNat_encodeXK g x lo8

theorem toNat_encodeXYS (g : BitVec 4) (x y : Reg) (lo : BitVec 4) :
    (encodeXYS g x y lo).toNat = g.toNat * 4096 + x.val * 256 + y.val * 16 + lo.toNat := by
  have h := (regBits x ++ (regBits y ++ lo)).isLt
  have h2 := (regBits y ++ lo).isLt
  simp only [encodeXYS, BitVec.toNat_append] at h h2 ⊢
  rw [← Nat.shiftLeft_add_eq_or_of_lt h, ← Nat.shiftLeft_add_eq_or_of_lt h2, ← Nat.shiftLeft_add_eq_or_of_lt lo.isLt]
  simp only [Nat.shiftLeft_eq, toNat_regBits]
  omega

end Sys2Proof
end

