-- ==== Sys2Proof/Laws/Flags.lean ====
section
/-!
SUPPORT. Every flag is the byte 0 or 1, and when it is 1 (10_state.md R11, R19).
-/

namespace Sys2Proof.Machine

@[simp] theorem flagByte_true : flagByte true = 1 := rfl

@[simp] theorem flagByte_false : flagByte false = 0 := rfl

theorem flagByte_eq_one {c : Bool} : flagByte c = 1 ↔ c = true := by cases c <;> decide

theorem flagByte_eq_zero {c : Bool} : flagByte c = 0 ↔ c = false := by cases c <;> decide

theorem carry_eq_one {a b : Byte} : carry a b = 1 ↔ 255 < a.toNat + b.toNat := by
  rw [carry, flagByte_eq_one, decide_eq_true_eq]

theorem noBorrow_eq_one {a b : Byte} : noBorrow a b = 1 ↔ b.toNat ≤ a.toNat := by
  rw [noBorrow, flagByte_eq_one, decide_eq_true_eq]

theorem lowBit_eq_one {a : Byte} : lowBit a = 1 ↔ a.getLsbD 0 = true := by rw [lowBit, flagByte_eq_one]

theorem highBit_eq_one {a : Byte} : highBit a = 1 ↔ a.getLsbD 7 = true := by rw [highBit, flagByte_eq_one]

theorem indexCarry_eq_one {i : Addr} {a : Byte} : indexCarry i a = 1 ↔ 0xFFF < i.toNat + a.toNat := by
  rw [indexCarry, flagByte_eq_one, decide_eq_true_eq]

theorem collision_eq_one {hit : Bool} : collision hit = 1 ↔ hit = true := by rw [collision, flagByte_eq_one]

end Sys2Proof.Machine
end

