-- ==== Sys2Proof/Laws/Memory.lean ====
section
/-!
SUPPORT. The laws of memory (20_memory.md R41, R47, R49): a read after a write, the canonical form, and the same for ranges.
-/

namespace Sys2Proof.Machine.Memory

@[simp] theorem read_nil (a : Nat) : Memory.read [] a = resetByte a := rfl

@[simp] theorem wf_nil : Memory.wf [] = true := rfl

theorem wfFrom_cons {lo b : Nat} {u : Byte} {m : Memory} :
    Memory.wfFrom lo ((b, u) :: m) = true ↔ lo ≤ b ∧ b < 4096 ∧ u ≠ resetByte b ∧ Memory.wfFrom (b + 1) m = true := by
  simp [Memory.wfFrom, and_assoc]

theorem wfFrom_mono {lo lo' : Nat} {m : Memory} (h : lo' ≤ lo) (hm : Memory.wfFrom lo m = true) : Memory.wfFrom lo' m = true := by
  cases m with
  | nil => rfl
  | cons c m =>
    obtain ⟨b, u⟩ := c
    rw [wfFrom_cons] at hm ⊢
    exact ⟨h.trans hm.1, hm.2⟩

/-- Below its first address a canonical memory reads as after reset. -/
theorem read_of_lt {lo a : Nat} {m : Memory} (hm : Memory.wfFrom lo m = true) (h : a < lo) : Memory.read m a = resetByte a := by
  cases m with
  | nil => rfl
  | cons c m =>
    obtain ⟨b, u⟩ := c
    rw [wfFrom_cons] at hm
    have : a < b := by omega
    simp [Memory.read, this]

theorem wfFrom_write {lo a : Nat} {m : Memory} {u : Byte} (hm : Memory.wfFrom lo m = true) (hlo : lo ≤ a) (ha : a < 4096) :
    Memory.wfFrom lo (Memory.write m a u) = true := by
  induction m generalizing lo with
  | nil =>
    by_cases h : u = resetByte a
    · simp [Memory.write, h, Memory.wfFrom]
    · simp [Memory.write, h, Memory.wfFrom, hlo, ha]
  | cons c m ih =>
    obtain ⟨b, t⟩ := c
    have hm' := wfFrom_cons.1 hm
    simp only [Memory.write]
    by_cases hab : a < b
    · by_cases h : u = resetByte a
      · simp only [hab, h, if_true]; exact hm
      · simp only [hab, h, if_true, if_false]
        exact wfFrom_cons.2 ⟨hlo, ha, h, wfFrom_cons.2 ⟨hab, hm'.2⟩⟩
    · by_cases he : a = b
      · rw [if_neg hab, if_pos he]
        by_cases h : u = resetByte a
        · rw [if_pos h]
          exact wfFrom_mono (by omega) hm'.2.2.2
        · rw [if_neg h]
          exact wfFrom_cons.2 ⟨hlo, ha, h, by rw [he]; exact hm'.2.2.2⟩
      · simp only [hab, he, if_false]
        exact wfFrom_cons.2 ⟨hm'.1, hm'.2.1, hm'.2.2.1, ih hm'.2.2.2 (by omega)⟩

theorem read_write_from {lo a : Nat} {m : Memory} {u : Byte} (hm : Memory.wfFrom lo m = true) (c : Nat) :
    Memory.read (Memory.write m a u) c = if c = a then u else Memory.read m c := by
  induction m generalizing lo with
  | nil =>
    by_cases h : u = resetByte a
    · by_cases hc : c = a <;> simp [Memory.write, Memory.read, h, hc]
    · by_cases hc : c = a
      · simp [Memory.write, Memory.read, h, hc]
      · simp [Memory.write, Memory.read, h, hc]
  | cons d m ih =>
    obtain ⟨b, t⟩ := d
    have hm' := wfFrom_cons.1 hm
    have ih := ih hm'.2.2.2
    by_cases hab : a < b
    · by_cases h : u = resetByte a
      · by_cases hc : c = a
        · simp [Memory.write, Memory.read, hab, h, hc]
        · simp [Memory.write, hab, h, hc]
      · by_cases hc : c = a
        · simp [Memory.write, Memory.read, hab, h, hc]
        · by_cases hca : c < a
          · have : c < b := by omega
            simp [Memory.write, Memory.read, hab, h, hc, hca, this]
          · simp [Memory.write, Memory.read, hab, h, hc, hca]
    · by_cases he : a = b
      · subst he
        by_cases h : u = resetByte a
        · have hw : Memory.write ((a, t) :: m) a u = m := by simp [Memory.write, h]
          rw [hw]
          by_cases hc : c = a
          · rw [if_pos hc, hc, h]
            exact read_of_lt hm'.2.2.2 (by omega)
          · by_cases hca : c < a
            · rw [read_of_lt hm'.2.2.2 (by omega)]
              simp [Memory.read, hc, hca]
            · simp [Memory.read, hc, hca]
        · by_cases hc : c = a
          · simp [Memory.write, Memory.read, h, hc]
          · simp [Memory.write, Memory.read, h, hc]
      · have hw : Memory.write ((b, t) :: m) a u = (b, t) :: Memory.write m a u := by simp [Memory.write, hab, he]
        rw [hw]
        simp only [Memory.read, ih]
        by_cases hcb : c < b
        · have : c ≠ a := by omega
          simp [hcb, this]
        · by_cases hc : c = b
          · have : c ≠ a := by omega
            subst hc
            simp [this]
          · simp [hcb, hc]

/-- A read after a write gives the byte written, and a write leaves every other address alone (R49). -/
theorem read_write {m : Memory} (hm : m.wf = true) (a : Nat) (u : Byte) (c : Nat) :
    (m.write a u).read c = if c = a then u else m.read c := read_write_from (lo := 0) hm c

/-- A write keeps the canonical form. -/
theorem wf_write {m : Memory} (hm : m.wf = true) {a : Nat} (ha : a < 4096) (u : Byte) : (m.write a u).wf = true :=
  wfFrom_write hm (Nat.zero_le a) ha

/-- A range write keeps the canonical form. -/
theorem wf_writeRange {m : Memory} (hm : m.wf = true) {a : Nat} {us : List Byte} (ha : a + us.length ≤ 4096) :
    (m.writeRange a us).wf = true := by
  induction us generalizing m a with
  | nil => exact hm
  | cons u us ih =>
    simp only [List.length_cons] at ha
    exact ih (wf_write hm (by omega) u) (by omega)

/-- A range write puts each byte at its address and leaves every address outside the range alone (R47). -/
theorem read_writeRange {m : Memory} (hm : m.wf = true) {a : Nat} {us : List Byte} (ha : a + us.length ≤ 4096) (c : Nat) :
    (m.writeRange a us).read c = if a ≤ c ∧ c < a + us.length then us.getD (c - a) 0 else m.read c := by
  induction us generalizing m a with
  | nil => simp only [Memory.writeRange, List.length_nil]; rw [if_neg (by omega)]
  | cons u us ih =>
    simp only [List.length_cons] at ha ⊢
    rw [Memory.writeRange, ih (wf_write hm (by omega) u) (by omega), read_write hm]
    by_cases hc : c = a
    · subst hc
      rw [if_neg (by omega), if_pos rfl, if_pos (by omega)]
      simp
    · by_cases hin : a + 1 ≤ c ∧ c < a + 1 + us.length
      · rw [if_pos hin, if_pos (by omega)]
        obtain ⟨k, hk⟩ : ∃ k, c - a = k + 1 := ⟨c - a - 1, by omega⟩
        have hk' : c - (a + 1) = k := by omega
        rw [hk, hk']
        simp
      · rw [if_neg hin, if_neg hc, if_neg (by omega)]

@[simp] theorem length_readRange (m : Memory) (a len : Nat) : (m.readRange a len).length = len := by
  induction len generalizing a with
  | zero => rfl
  | succ len ih => simp [Memory.readRange, ih]

/-- The `k`-th byte of a range is the byte at its address (R47). -/
theorem getD_readRange (m : Memory) (a len k : Nat) (hk : k < len) : (m.readRange a len).getD k 0 = m.read (a + k) := by
  induction len generalizing a k with
  | zero => omega
  | succ len ih =>
    cases k with
    | zero => simp [Memory.readRange]
    | succ k =>
      simp only [Memory.readRange, List.getD_cons_succ]
      rw [ih (a + 1) k (by omega)]
      congr 1
      omega

end Sys2Proof.Machine.Memory
end

