-- ==== Sys2Proof/Laws/State.lean ====
section
/-!
SUPPORT. One lemma per field and update of the state, so that no later proof unfolds a record update; and what a register read gives
after each update.
-/

namespace Sys2Proof.Machine.State

@[simp] theorem setReg_i (s : State) (x : Reg) (u : Byte) : (s.setReg x u).i = s.i := rfl
@[simp] theorem setReg_pc (s : State) (x : Reg) (u : Byte) : (s.setReg x u).pc = s.pc := rfl
@[simp] theorem setReg_sp (s : State) (x : Reg) (u : Byte) : (s.setReg x u).sp = s.sp := rfl
@[simp] theorem setReg_stack (s : State) (x : Reg) (u : Byte) : (s.setReg x u).stack = s.stack := rfl
@[simp] theorem setReg_dt (s : State) (x : Reg) (u : Byte) : (s.setReg x u).dt = s.dt := rfl
@[simp] theorem setReg_st (s : State) (x : Reg) (u : Byte) : (s.setReg x u).st = s.st := rfl
@[simp] theorem setReg_mem (s : State) (x : Reg) (u : Byte) : (s.setReg x u).mem = s.mem := rfl
@[simp] theorem setReg_disp (s : State) (x : Reg) (u : Byte) : (s.setReg x u).disp = s.disp := rfl
@[simp] theorem setReg_key (s : State) (x : Reg) (u : Byte) : (s.setReg x u).key = s.key := rfl
@[simp] theorem setReg_ir (s : State) (x : Reg) (u : Byte) : (s.setReg x u).ir = s.ir := rfl
@[simp] theorem setReg_report (s : State) (x : Reg) (u : Byte) : (s.setReg x u).report = s.report := rfl
@[simp] theorem setReg_rndDraws (s : State) (x : Reg) (u : Byte) : (s.setReg x u).rndDraws = s.rndDraws := rfl
@[simp] theorem keyDown_setReg (s : State) (x : Reg) (u : Byte) (k : Fin 16) : (s.setReg x u).keyDown k = s.keyDown k := rfl

@[simp] theorem setRegs_i (s : State) (f : Reg → Byte) : (s.setRegs f).i = s.i := rfl
@[simp] theorem setRegs_pc (s : State) (f : Reg → Byte) : (s.setRegs f).pc = s.pc := rfl
@[simp] theorem setRegs_sp (s : State) (f : Reg → Byte) : (s.setRegs f).sp = s.sp := rfl
@[simp] theorem setRegs_stack (s : State) (f : Reg → Byte) : (s.setRegs f).stack = s.stack := rfl
@[simp] theorem setRegs_dt (s : State) (f : Reg → Byte) : (s.setRegs f).dt = s.dt := rfl
@[simp] theorem setRegs_st (s : State) (f : Reg → Byte) : (s.setRegs f).st = s.st := rfl
@[simp] theorem setRegs_mem (s : State) (f : Reg → Byte) : (s.setRegs f).mem = s.mem := rfl
@[simp] theorem setRegs_disp (s : State) (f : Reg → Byte) : (s.setRegs f).disp = s.disp := rfl
@[simp] theorem setRegs_key (s : State) (f : Reg → Byte) : (s.setRegs f).key = s.key := rfl
@[simp] theorem setRegs_ir (s : State) (f : Reg → Byte) : (s.setRegs f).ir = s.ir := rfl
@[simp] theorem setRegs_report (s : State) (f : Reg → Byte) : (s.setRegs f).report = s.report := rfl
@[simp] theorem setRegs_rndDraws (s : State) (f : Reg → Byte) : (s.setRegs f).rndDraws = s.rndDraws := rfl
@[simp] theorem keyDown_setRegs (s : State) (f : Reg → Byte) (k : Fin 16) : (s.setRegs f).keyDown k = s.keyDown k := rfl

@[simp] theorem setIndex_v (s : State) (a : Addr) : (s.setIndex a).v = s.v := rfl
@[simp] theorem setIndex_i (s : State) (a : Addr) : (s.setIndex a).i = a := rfl
@[simp] theorem setIndex_pc (s : State) (a : Addr) : (s.setIndex a).pc = s.pc := rfl
@[simp] theorem setIndex_sp (s : State) (a : Addr) : (s.setIndex a).sp = s.sp := rfl
@[simp] theorem setIndex_stack (s : State) (a : Addr) : (s.setIndex a).stack = s.stack := rfl
@[simp] theorem setIndex_dt (s : State) (a : Addr) : (s.setIndex a).dt = s.dt := rfl
@[simp] theorem setIndex_st (s : State) (a : Addr) : (s.setIndex a).st = s.st := rfl
@[simp] theorem setIndex_mem (s : State) (a : Addr) : (s.setIndex a).mem = s.mem := rfl
@[simp] theorem setIndex_disp (s : State) (a : Addr) : (s.setIndex a).disp = s.disp := rfl
@[simp] theorem setIndex_key (s : State) (a : Addr) : (s.setIndex a).key = s.key := rfl
@[simp] theorem setIndex_ir (s : State) (a : Addr) : (s.setIndex a).ir = s.ir := rfl
@[simp] theorem setIndex_report (s : State) (a : Addr) : (s.setIndex a).report = s.report := rfl
@[simp] theorem setIndex_rndDraws (s : State) (a : Addr) : (s.setIndex a).rndDraws = s.rndDraws := rfl
@[simp] theorem reg_setIndex (s : State) (a : Addr) (r : Reg) : (s.setIndex a).reg r = s.reg r := rfl
@[simp] theorem keyDown_setIndex (s : State) (a : Addr) (k : Fin 16) : (s.setIndex a).keyDown k = s.keyDown k := rfl

@[simp] theorem setPc_v (s : State) (a : Word) : (s.setPc a).v = s.v := rfl
@[simp] theorem setPc_i (s : State) (a : Word) : (s.setPc a).i = s.i := rfl
@[simp] theorem setPc_pc (s : State) (a : Word) : (s.setPc a).pc = a := rfl
@[simp] theorem setPc_sp (s : State) (a : Word) : (s.setPc a).sp = s.sp := rfl
@[simp] theorem setPc_stack (s : State) (a : Word) : (s.setPc a).stack = s.stack := rfl
@[simp] theorem setPc_dt (s : State) (a : Word) : (s.setPc a).dt = s.dt := rfl
@[simp] theorem setPc_st (s : State) (a : Word) : (s.setPc a).st = s.st := rfl
@[simp] theorem setPc_mem (s : State) (a : Word) : (s.setPc a).mem = s.mem := rfl
@[simp] theorem setPc_disp (s : State) (a : Word) : (s.setPc a).disp = s.disp := rfl
@[simp] theorem setPc_key (s : State) (a : Word) : (s.setPc a).key = s.key := rfl
@[simp] theorem setPc_ir (s : State) (a : Word) : (s.setPc a).ir = s.ir := rfl
@[simp] theorem setPc_report (s : State) (a : Word) : (s.setPc a).report = s.report := rfl
@[simp] theorem setPc_rndDraws (s : State) (a : Word) : (s.setPc a).rndDraws = s.rndDraws := rfl
@[simp] theorem reg_setPc (s : State) (a : Word) (r : Reg) : (s.setPc a).reg r = s.reg r := rfl
@[simp] theorem keyDown_setPc (s : State) (a : Word) (k : Fin 16) : (s.setPc a).keyDown k = s.keyDown k := rfl

@[simp] theorem setDt_v (s : State) (u : Byte) : (s.setDt u).v = s.v := rfl
@[simp] theorem setDt_i (s : State) (u : Byte) : (s.setDt u).i = s.i := rfl
@[simp] theorem setDt_pc (s : State) (u : Byte) : (s.setDt u).pc = s.pc := rfl
@[simp] theorem setDt_sp (s : State) (u : Byte) : (s.setDt u).sp = s.sp := rfl
@[simp] theorem setDt_stack (s : State) (u : Byte) : (s.setDt u).stack = s.stack := rfl
@[simp] theorem setDt_dt (s : State) (u : Byte) : (s.setDt u).dt = u := rfl
@[simp] theorem setDt_st (s : State) (u : Byte) : (s.setDt u).st = s.st := rfl
@[simp] theorem setDt_mem (s : State) (u : Byte) : (s.setDt u).mem = s.mem := rfl
@[simp] theorem setDt_disp (s : State) (u : Byte) : (s.setDt u).disp = s.disp := rfl
@[simp] theorem setDt_key (s : State) (u : Byte) : (s.setDt u).key = s.key := rfl
@[simp] theorem setDt_ir (s : State) (u : Byte) : (s.setDt u).ir = s.ir := rfl
@[simp] theorem setDt_report (s : State) (u : Byte) : (s.setDt u).report = s.report := rfl
@[simp] theorem setDt_rndDraws (s : State) (u : Byte) : (s.setDt u).rndDraws = s.rndDraws := rfl
@[simp] theorem reg_setDt (s : State) (u : Byte) (r : Reg) : (s.setDt u).reg r = s.reg r := rfl
@[simp] theorem keyDown_setDt (s : State) (u : Byte) (k : Fin 16) : (s.setDt u).keyDown k = s.keyDown k := rfl

@[simp] theorem setSt_v (s : State) (u : Byte) : (s.setSt u).v = s.v := rfl
@[simp] theorem setSt_i (s : State) (u : Byte) : (s.setSt u).i = s.i := rfl
@[simp] theorem setSt_pc (s : State) (u : Byte) : (s.setSt u).pc = s.pc := rfl
@[simp] theorem setSt_sp (s : State) (u : Byte) : (s.setSt u).sp = s.sp := rfl
@[simp] theorem setSt_stack (s : State) (u : Byte) : (s.setSt u).stack = s.stack := rfl
@[simp] theorem setSt_dt (s : State) (u : Byte) : (s.setSt u).dt = s.dt := rfl
@[simp] theorem setSt_st (s : State) (u : Byte) : (s.setSt u).st = u := rfl
@[simp] theorem setSt_mem (s : State) (u : Byte) : (s.setSt u).mem = s.mem := rfl
@[simp] theorem setSt_disp (s : State) (u : Byte) : (s.setSt u).disp = s.disp := rfl
@[simp] theorem setSt_key (s : State) (u : Byte) : (s.setSt u).key = s.key := rfl
@[simp] theorem setSt_ir (s : State) (u : Byte) : (s.setSt u).ir = s.ir := rfl
@[simp] theorem setSt_report (s : State) (u : Byte) : (s.setSt u).report = s.report := rfl
@[simp] theorem setSt_rndDraws (s : State) (u : Byte) : (s.setSt u).rndDraws = s.rndDraws := rfl
@[simp] theorem reg_setSt (s : State) (u : Byte) (r : Reg) : (s.setSt u).reg r = s.reg r := rfl
@[simp] theorem keyDown_setSt (s : State) (u : Byte) (k : Fin 16) : (s.setSt u).keyDown k = s.keyDown k := rfl

@[simp] theorem setMem_v (s : State) (m : Memory) : (s.setMem m).v = s.v := rfl
@[simp] theorem setMem_i (s : State) (m : Memory) : (s.setMem m).i = s.i := rfl
@[simp] theorem setMem_pc (s : State) (m : Memory) : (s.setMem m).pc = s.pc := rfl
@[simp] theorem setMem_sp (s : State) (m : Memory) : (s.setMem m).sp = s.sp := rfl
@[simp] theorem setMem_stack (s : State) (m : Memory) : (s.setMem m).stack = s.stack := rfl
@[simp] theorem setMem_dt (s : State) (m : Memory) : (s.setMem m).dt = s.dt := rfl
@[simp] theorem setMem_st (s : State) (m : Memory) : (s.setMem m).st = s.st := rfl
@[simp] theorem setMem_mem (s : State) (m : Memory) : (s.setMem m).mem = m := rfl
@[simp] theorem setMem_disp (s : State) (m : Memory) : (s.setMem m).disp = s.disp := rfl
@[simp] theorem setMem_key (s : State) (m : Memory) : (s.setMem m).key = s.key := rfl
@[simp] theorem setMem_ir (s : State) (m : Memory) : (s.setMem m).ir = s.ir := rfl
@[simp] theorem setMem_report (s : State) (m : Memory) : (s.setMem m).report = s.report := rfl
@[simp] theorem setMem_rndDraws (s : State) (m : Memory) : (s.setMem m).rndDraws = s.rndDraws := rfl
@[simp] theorem reg_setMem (s : State) (m : Memory) (r : Reg) : (s.setMem m).reg r = s.reg r := rfl
@[simp] theorem keyDown_setMem (s : State) (m : Memory) (k : Fin 16) : (s.setMem m).keyDown k = s.keyDown k := rfl

@[simp] theorem setDisp_v (s : State) (d : Display) : (s.setDisp d).v = s.v := rfl
@[simp] theorem setDisp_i (s : State) (d : Display) : (s.setDisp d).i = s.i := rfl
@[simp] theorem setDisp_pc (s : State) (d : Display) : (s.setDisp d).pc = s.pc := rfl
@[simp] theorem setDisp_sp (s : State) (d : Display) : (s.setDisp d).sp = s.sp := rfl
@[simp] theorem setDisp_stack (s : State) (d : Display) : (s.setDisp d).stack = s.stack := rfl
@[simp] theorem setDisp_dt (s : State) (d : Display) : (s.setDisp d).dt = s.dt := rfl
@[simp] theorem setDisp_st (s : State) (d : Display) : (s.setDisp d).st = s.st := rfl
@[simp] theorem setDisp_mem (s : State) (d : Display) : (s.setDisp d).mem = s.mem := rfl
@[simp] theorem setDisp_disp (s : State) (d : Display) : (s.setDisp d).disp = d := rfl
@[simp] theorem setDisp_key (s : State) (d : Display) : (s.setDisp d).key = s.key := rfl
@[simp] theorem setDisp_ir (s : State) (d : Display) : (s.setDisp d).ir = s.ir := rfl
@[simp] theorem setDisp_report (s : State) (d : Display) : (s.setDisp d).report = s.report := rfl
@[simp] theorem setDisp_rndDraws (s : State) (d : Display) : (s.setDisp d).rndDraws = s.rndDraws := rfl
@[simp] theorem reg_setDisp (s : State) (d : Display) (r : Reg) : (s.setDisp d).reg r = s.reg r := rfl
@[simp] theorem keyDown_setDisp (s : State) (d : Display) (k : Fin 16) : (s.setDisp d).keyDown k = s.keyDown k := rfl

@[simp] theorem nextRnd_v (s : State) : (s.nextRnd).v = s.v := rfl
@[simp] theorem nextRnd_i (s : State) : (s.nextRnd).i = s.i := rfl
@[simp] theorem nextRnd_pc (s : State) : (s.nextRnd).pc = s.pc := rfl
@[simp] theorem nextRnd_sp (s : State) : (s.nextRnd).sp = s.sp := rfl
@[simp] theorem nextRnd_stack (s : State) : (s.nextRnd).stack = s.stack := rfl
@[simp] theorem nextRnd_dt (s : State) : (s.nextRnd).dt = s.dt := rfl
@[simp] theorem nextRnd_st (s : State) : (s.nextRnd).st = s.st := rfl
@[simp] theorem nextRnd_mem (s : State) : (s.nextRnd).mem = s.mem := rfl
@[simp] theorem nextRnd_disp (s : State) : (s.nextRnd).disp = s.disp := rfl
@[simp] theorem nextRnd_key (s : State) : (s.nextRnd).key = s.key := rfl
@[simp] theorem nextRnd_ir (s : State) : (s.nextRnd).ir = s.ir := rfl
@[simp] theorem nextRnd_report (s : State) : (s.nextRnd).report = s.report := rfl
@[simp] theorem nextRnd_rndDraws (s : State) : (s.nextRnd).rndDraws = s.rndDraws + 1 := rfl
@[simp] theorem reg_nextRnd (s : State) (r : Reg) : (s.nextRnd).reg r = s.reg r := rfl
@[simp] theorem keyDown_nextRnd (s : State) (k : Fin 16) : (s.nextRnd).keyDown k = s.keyDown k := rfl

@[simp] theorem raise_v (s : State) (c : Report) : (s.raise c).v = s.v := rfl
@[simp] theorem raise_i (s : State) (c : Report) : (s.raise c).i = s.i := rfl
@[simp] theorem raise_pc (s : State) (c : Report) : (s.raise c).pc = s.pc := rfl
@[simp] theorem raise_sp (s : State) (c : Report) : (s.raise c).sp = s.sp := rfl
@[simp] theorem raise_stack (s : State) (c : Report) : (s.raise c).stack = s.stack := rfl
@[simp] theorem raise_dt (s : State) (c : Report) : (s.raise c).dt = s.dt := rfl
@[simp] theorem raise_st (s : State) (c : Report) : (s.raise c).st = s.st := rfl
@[simp] theorem raise_mem (s : State) (c : Report) : (s.raise c).mem = s.mem := rfl
@[simp] theorem raise_disp (s : State) (c : Report) : (s.raise c).disp = s.disp := rfl
@[simp] theorem raise_key (s : State) (c : Report) : (s.raise c).key = s.key := rfl
@[simp] theorem raise_ir (s : State) (c : Report) : (s.raise c).ir = s.ir := rfl
@[simp] theorem raise_report (s : State) (c : Report) : (s.raise c).report = c := rfl
@[simp] theorem raise_rndDraws (s : State) (c : Report) : (s.raise c).rndDraws = s.rndDraws := rfl
@[simp] theorem reg_raise (s : State) (c : Report) (r : Reg) : (s.raise c).reg r = s.reg r := rfl
@[simp] theorem keyDown_raise (s : State) (c : Report) (k : Fin 16) : (s.raise c).keyDown k = s.keyDown k := rfl

@[simp] theorem tick_v (s : State) : (s.tick).v = s.v := rfl
@[simp] theorem tick_i (s : State) : (s.tick).i = s.i := rfl
@[simp] theorem tick_pc (s : State) : (s.tick).pc = s.pc := rfl
@[simp] theorem tick_sp (s : State) : (s.tick).sp = s.sp := rfl
@[simp] theorem tick_stack (s : State) : (s.tick).stack = s.stack := rfl
@[simp] theorem tick_dt (s : State) : (s.tick).dt = tickTimer s.dt := rfl
@[simp] theorem tick_st (s : State) : (s.tick).st = tickTimer s.st := rfl
@[simp] theorem tick_mem (s : State) : (s.tick).mem = s.mem := rfl
@[simp] theorem tick_disp (s : State) : (s.tick).disp = s.disp := rfl
@[simp] theorem tick_key (s : State) : (s.tick).key = s.key := rfl
@[simp] theorem tick_ir (s : State) : (s.tick).ir = s.ir := rfl
@[simp] theorem tick_report (s : State) : (s.tick).report = s.report := rfl
@[simp] theorem tick_rndDraws (s : State) : (s.tick).rndDraws = s.rndDraws := rfl
@[simp] theorem reg_tick (s : State) (r : Reg) : (s.tick).reg r = s.reg r := rfl
@[simp] theorem keyDown_tick (s : State) (k : Fin 16) : (s.tick).keyDown k = s.keyDown k := rfl

@[simp] theorem fetched_v (s : State) : (s.fetched).v = s.v := rfl
@[simp] theorem fetched_i (s : State) : (s.fetched).i = s.i := rfl
@[simp] theorem fetched_pc (s : State) : (s.fetched).pc = s.pc + 2 := rfl
@[simp] theorem fetched_sp (s : State) : (s.fetched).sp = s.sp := rfl
@[simp] theorem fetched_stack (s : State) : (s.fetched).stack = s.stack := rfl
@[simp] theorem fetched_dt (s : State) : (s.fetched).dt = s.dt := rfl
@[simp] theorem fetched_st (s : State) : (s.fetched).st = s.st := rfl
@[simp] theorem fetched_mem (s : State) : (s.fetched).mem = s.mem := rfl
@[simp] theorem fetched_disp (s : State) : (s.fetched).disp = s.disp := rfl
@[simp] theorem fetched_key (s : State) : (s.fetched).key = s.key := rfl
@[simp] theorem fetched_ir (s : State) : (s.fetched).ir = s.wordAtPc := rfl
@[simp] theorem fetched_report (s : State) : (s.fetched).report = .none := rfl
@[simp] theorem fetched_rndDraws (s : State) : (s.fetched).rndDraws = s.rndDraws := rfl
@[simp] theorem reg_fetched (s : State) (r : Reg) : (s.fetched).reg r = s.reg r := rfl
@[simp] theorem keyDown_fetched (s : State) (k : Fin 16) : (s.fetched).keyDown k = s.keyDown k := rfl

/-- A register reads what was last written to it, and every other register is unchanged. -/
@[simp] theorem reg_setReg (s : State) (x r : Reg) (u : Byte) : (s.setReg x u).reg r = if r = x then u else s.reg r := by
  simp only [reg, setReg, Vector.get_eq_getElem, Vector.getElem_set, Fin.val_inj, eq_comm]

@[simp] theorem reg_setRegs (s : State) (f : Reg → Byte) (r : Reg) : (s.setRegs f).reg r = f r := by
  simp [reg, setRegs, Vector.get_eq_getElem]

end Sys2Proof.Machine.State
end

