-- ==== Sys2Proof/Laws/Operands.lean ====
section
/-!
SUPPORT. One lemma per operand form, saying what it gives (30_encoding.md R74, 42_index_memory.md R146).
-/

namespace Sys2Proof.Machine

/-- A 12-bit target is its own value (R74). -/
theorem toNat_target (nnn : Addr) : (target nnn).toNat = nnn.toNat := by
  have := nnn.isLt
  rw [target, BitVec.toNat_setWidth]
  omega

/-- The sum of jump-offset is not reduced (R107). -/
theorem toNat_offsetTarget (nnn : Addr) (v0 : Byte) : (offsetTarget nnn v0).toNat = nnn.toNat + v0.toNat := by
  have := nnn.isLt
  have := v0.isLt
  rw [offsetTarget, BitVec.toNat_add, BitVec.toNat_setWidth, BitVec.toNat_setWidth]
  omega

/-- The sum of add-to-index is reduced modulo 4096 (R141). -/
theorem toNat_indexSum (i : Addr) (a : Byte) : (indexSum i a).toNat = (i.toNat + a.toNat) % 4096 := by
  simp [indexSum]

/-- A glyph's address fits `I` without reduction (R142). -/
theorem toNat_glyphAddr (a : Byte) : (glyphAddr a).toNat = a.toNat * 5 := by
  have := a.isLt
  simp only [glyphAddr, BitVec.toNat_ofNat]
  omega

/-- A register value names a key exactly when it is below 16 (R170, R208). -/
theorem keyIndex_of_lt {a : Byte} (h : a.toNat < 16) : keyIndex a = some ⟨a.toNat, h⟩ := by simp [keyIndex, h]

theorem keyIndex_of_ge {a : Byte} (h : 15 < a.toNat) : keyIndex a = none := by
  simp only [keyIndex, dif_neg (show ¬ a.toNat < 16 by omega)]

@[simp] theorem toNat_keyByte (k : Fin 16) : (keyByte k).toNat = k.val := by
  have := k.isLt
  simp only [keyByte, BitVec.toNat_ofNat]
  omega

/-- `firstKey` is the least pressed key (R173). -/
theorem firstKey_eq_some {s : State} {k : Fin 16} (h : s.keyDown k = true) (hl : ∀ j : Fin 16, j < k → s.keyDown j = false) :
    firstKey s = some k := by
  unfold firstKey
  rw [List.find?_eq_some_iff_getElem]
  refine ⟨h, k.val, by simp, by simp, ?_⟩
  intro j hj
  have hf := hl ⟨j, by omega⟩ (Fin.lt_def.2 hj)
  simpa using hf

/-- No key is pressed (R173). -/
theorem firstKey_eq_none {s : State} (h : ∀ k : Fin 16, s.keyDown k = false) : firstKey s = none := by
  simp [firstKey, List.find?_eq_none, h]

@[simp] theorem length_bcdDigits (a : Byte) : (bcdDigits a).length = 3 := rfl

@[simp] theorem length_regsUpTo (s : State) (x : Reg) : (regsUpTo s x).length = x.val + 1 := by
  simp [regsUpTo, regCount]

/-- The `k`-th byte that store-regs writes is `V[k]` (R144). -/
theorem getD_regsUpTo (s : State) (x : Reg) {k : Reg} (h : k ≤ x) : (regsUpTo s x).getD k.val 0 = s.reg k := by
  have hk : k.val < x.val + 1 := Nat.lt_succ_of_le h
  simp [regsUpTo, regCount, List.getD_eq_getElem?_getD, State.reg, Vector.get_eq_getElem, hk]

@[simp] theorem length_spriteRows (s : State) (n : Nat) : (spriteRows s n).length = n := by
  unfold spriteRows
  generalize s.i.toNat = a
  induction n generalizing a with
  | zero => rfl
  | succ n ih => simp only [Memory.readRange, List.length_cons, ih]

end Sys2Proof.Machine
end

