-- ==== Sys2Proof/Laws/Ops.lean ====
section
/-!
SUPPORT. One lemma per shared operation, saying once what it can do: guarded ranges, skips, call and return, the timers, the display
and the step.
-/

namespace Sys2Proof.Machine

-- ==== conditions and ranges (R42) ====

theorem rangeOk_iff {s : State} {len : Nat} : s.rangeOk len = true ↔ len = 0 ∨ s.i.toNat + len ≤ 4096 := by simp [State.rangeOk]

/-- A guarded body either runs or the range is refused with the last address of the range (R42). -/
theorem guardRange_eq (s : State) (len : Nat) (body : State) :
    s.guardRange len body =
      if len = 0 ∨ s.i.toNat + len ≤ 4096 then body else s.raise (.addressOutOfRange (s.i.toNat + len - 1)) := by
  simp only [State.guardRange, rangeOk_iff]

-- ==== skips, call and return ====

/-- A skip changes `PC` alone (R103). -/
theorem skipIf_eq (s : State) (c : Bool) : s.skipIf c = s.setPc (if c then s.pc + 2 else s.pc) := by cases c <;> rfl

/-- A call with room on the stack (R102). -/
theorem callTo_of_lt {s : State} {a : Word} (h : s.sp.val < 16) :
    s.callTo a = { s with stack := s.stack.set s.sp.val s.pc h, sp := ⟨s.sp.val + 1, by omega⟩, pc := a } := by
  simp only [State.callTo, h, dif_pos]

/-- A call with a full stack (R205). -/
theorem callTo_full {s : State} {a : Word} (h : s.sp.val = 16) : s.callTo a = s.raise (.stackOverflow s.pc) := by
  simp only [State.callTo, h, Nat.lt_irrefl, dif_neg, not_false_eq_true]

/-- A return with an address on the stack (R100). -/
theorem returnToCaller_of_pos {s : State} (h : 0 < s.sp.val) :
    s.returnToCaller = { s with sp := ⟨s.sp.val - 1, by have := s.sp.isLt; omega⟩, pc := s.stack.get ⟨s.sp.val - 1, by have := s.sp.isLt; omega⟩ } := by
  simp only [State.returnToCaller, h, dif_pos]

/-- A return with an empty stack (R206). -/
theorem returnToCaller_empty {s : State} (h : s.sp.val = 0) : s.returnToCaller = s.raise (.stackUnderflow s.pc) := by
  simp only [State.returnToCaller, h, Nat.lt_irrefl, dif_neg, not_false_eq_true]

/-- A slot after a push. -/
theorem get_set_slot (v : Vector Word 16) (j : Nat) (hj : j < 16) (u : Word) (k : Fin 16) :
    (v.set j u hj).get k = if k.val = j then u else v.get k := by
  simp only [Vector.get_eq_getElem, Vector.getElem_set, eq_comm]

-- ==== timers (R212) ====

/-- A timer loses 1 and stays at 0. -/
theorem toNat_tickTimer (t : Byte) : (tickTimer t).toNat = t.toNat - 1 := by
  have h := t.isLt
  simp only [tickTimer]
  split
  · next h0 => simp [h0]
  · next h0 =>
    have : t.toNat ≠ 0 := fun hz => h0 (BitVec.eq_of_toNat_eq (by simpa using hz))
    rw [BitVec.toNat_sub, show (1 : Byte).toNat = 1 from rfl]
    omega

-- ==== display (R161 to R163) ====

@[simp] theorem pixel_clear (cx cy : Nat) : Display.clear.pixel cx cy = false := by
  unfold Display.pixel
  split
  · next h =>
    have hrow : Display.clear.get ⟨cy, h⟩ = 0 := by simp only [Display.clear, Vector.get_eq_getElem, Vector.getElem_replicate]
    rw [hrow]
    exact BitVec.getLsbD_zero
  · rfl

/-- Which cells of a display row a sprite row covers. -/
theorem getLsbD_spriteMask (px : Nat) (row : Byte) (cx : Nat) :
    (spriteMask px row).getLsbD cx = (decide (cx < 64 ∧ px ≤ cx ∧ cx < px + 8) && row.getLsbD (7 - (cx - px))) := by
  unfold spriteMask
  by_cases hin : cx < 64 ∧ px ≤ cx ∧ cx < px + 8
  · have h1 : px < 64 := by omega
    have h2 : ¬ cx < px := by omega
    have h3 : cx - px < 64 := by omega
    have h4 : cx - px < 8 := by omega
    simp only [h1, if_true, BitVec.getLsbD_shiftLeft, BitVec.getLsbD_setWidth, BitVec.getLsbD_reverse, BitVec.getMsbD]
    simp [h2, h3, h4, hin]
  · rw [decide_eq_false hin, Bool.false_and]
    by_cases hpx : px < 64
    · simp only [hpx, if_true, BitVec.getLsbD_shiftLeft, BitVec.getLsbD_setWidth, BitVec.getLsbD_reverse, BitVec.getMsbD]
      by_cases h1 : cx < 64
      · by_cases h2 : cx < px
        · simp [h2]
        · have h3 : ¬ cx - px < 8 := by omega
          simp [h3]
      · simp [h1]
    · simp only [hpx, if_false]
      exact BitVec.getLsbD_zero

/-- A draw of one row changes the covered cells of that row, by XOR, and no other cell. -/
theorem pixel_drawRow (d : Display) (px cy : Nat) (row : Byte) (cx ry : Nat) :
    (d.drawRow px cy row).1.pixel cx ry =
      if ry = cy ∧ cy < 32 then (d.pixel cx ry ^^ (spriteMask px row).getLsbD cx) else d.pixel cx ry := by
  unfold Display.drawRow
  by_cases hcy : cy < 32
  · simp only [hcy, dif_pos, and_true]
    unfold Display.pixel
    by_cases hry : ry < 32
    · simp only [hry, dif_pos, Vector.get_eq_getElem, Vector.getElem_set]
      by_cases he : ry = cy
      · subst he; simp
      · have : ¬ cy = ry := fun h => he h.symm
        simp [he, this]
    · have : ¬ ry = cy := by omega
      simp [hry, this]
  · simp [hcy]

/-- A draw of one row reports a collision exactly when some covered cell was 1 (R161). -/
theorem hit_drawRow (d : Display) (px cy : Nat) (row : Byte) :
    (d.drawRow px cy row).2 = true ↔ cy < 32 ∧ ∃ cx, d.pixel cx cy = true ∧ (spriteMask px row).getLsbD cx = true := by
  unfold Display.drawRow
  by_cases hcy : cy < 32
  · simp only [hcy, dif_pos, decide_eq_true_eq, true_and]
    unfold Display.pixel
    simp only [hcy, dif_pos]
    constructor
    · intro h
      by_contra hno
      apply h
      apply BitVec.eq_of_getLsbD_eq
      intro k _
      rw [BitVec.getLsbD_and, show BitVec.getLsbD (0 : BitVec 64) k = false from BitVec.getLsbD_zero, Bool.and_eq_false_imp]
      intro hk
      by_contra hm
      exact hno ⟨k, hk, by simpa using hm⟩
    · rintro ⟨cx, h1, h2⟩ h0
      have := congrArg (fun v => v.getLsbD cx) h0
      simp [h1, h2] at this
  · simp [hcy]

/-- Cells outside the screen read 0. -/
theorem pixel_outside (d : Display) {cx cy : Nat} (h : ¬ (cx < 64 ∧ cy < 32)) : d.pixel cx cy = false := by
  unfold Display.pixel
  split
  · exact BitVec.getLsbD_of_ge _ _ (by omega)
  · rfl

/-- A draw changes a cell exactly when the sprite row that falls on its display row covers it (R161). -/
theorem pixel_drawRows (px : Nat) (rows : List Byte) (d : Display) (cy cx ry : Nat) :
    (d.drawRows px cy rows).1.pixel cx ry =
      (d.pixel cx ry ^^ (decide (ry < 32 ∧ cy ≤ ry ∧ ry < cy + rows.length) && (spriteMask px (rows.getD (ry - cy) 0)).getLsbD cx)) := by
  induction rows generalizing d cy with
  | nil =>
    have : ¬ (ry < 32 ∧ cy ≤ ry ∧ ry < cy + ([] : List Byte).length) := by simp only [List.length_nil]; omega
    rw [decide_eq_false this]
    simp [Display.drawRows]
  | cons row rows ih =>
    simp only [Display.drawRows, ih, pixel_drawRow, List.length_cons]
    by_cases he : ry = cy
    · subst he
      have h1 : ¬ ry + 1 ≤ ry := by omega
      by_cases h32 : ry < 32 <;> simp [h32]
    · by_cases hlt : cy ≤ ry
      · have h1 : ry - cy = (ry - (cy + 1)) + 1 := by omega
        have h2 : cy + 1 ≤ ry := by omega
        rw [h1, List.getD_cons_succ]
        simp [he, hlt, h2, show (ry < cy + 1 + rows.length) = (ry < cy + (rows.length + 1)) from by rw [Nat.add_assoc, Nat.add_comm 1]]
      · have h2 : ¬ cy + 1 ≤ ry := by omega
        simp [he, hlt, h2]

/-- A draw reports a collision exactly when it turned some cell off: rows of one draw fall on different display rows (R161). -/
theorem hit_drawRows (px : Nat) (rows : List Byte) (d : Display) (cy : Nat) :
    (d.drawRows px cy rows).2 = true ↔ ∃ cx ry, d.pixel cx ry = true ∧ (d.drawRows px cy rows).1.pixel cx ry = false := by
  induction rows generalizing d cy with
  | nil => simp [Display.drawRows]
  | cons row rows ih =>
    simp only [Display.drawRows, Bool.or_eq_true, ih, hit_drawRow]
    have hrow (cx : Nat) : (Display.drawRows (d.drawRow px cy row).1 px (cy + 1) rows).1.pixel cx cy = (d.drawRow px cy row).1.pixel cx cy := by
      rw [pixel_drawRows, decide_eq_false (by omega)]; simp
    have hoth (cx ry : Nat) (h : ry ≠ cy) : (d.drawRow px cy row).1.pixel cx ry = d.pixel cx ry := by
      rw [pixel_drawRow, if_neg (fun h' => h h'.1)]
    constructor
    · rintro (⟨h, cx, h1, h2⟩ | ⟨cx, ry, h1, h2⟩)
      · exact ⟨cx, cy, h1, by rw [hrow, pixel_drawRow, if_pos ⟨rfl, h⟩, h1, h2]; rfl⟩
      · have hne : ry ≠ cy := by
          rintro rfl
          rw [hrow, h1] at h2
          cases h2
        exact ⟨cx, ry, by rwa [← hoth cx ry hne], h2⟩
    · rintro ⟨cx, ry, h1, h2⟩
      by_cases he : ry = cy
      · subst he
        rw [hrow, pixel_drawRow] at h2
        by_cases h : ry < 32
        · rw [if_pos ⟨rfl, h⟩, h1] at h2
          exact .inl ⟨h, cx, h1, by simpa using h2⟩
        · rw [if_neg (fun h' => h h'.2), h1] at h2
          cases h2
      · exact .inr ⟨cx, ry, by rwa [hoth cx ry he], h2⟩

-- ==== the step cycle (R60) ====

theorem noFetch_none {s : State} : s.noFetch = none ↔ s.pc.toNat ≤ 4094 := by
  simp only [State.noFetch]
  split
  · simp; omega
  · split
    · simp; omega
    · simp; omega

theorem noFetch_halted {s : State} (h : 4096 ≤ s.pc.toNat) : s.noFetch = some (.halted s.pc) := by
  simp [State.noFetch, h]

theorem noFetch_last {s : State} (h : s.pc.toNat = 4095) : s.noFetch = some (.fetchOutOfRange s.pc) := by
  simp [State.noFetch, h]

/-- A body that answers is followed by the timers. -/
theorem finish_next {r : Result} {t : State} : finish r = .next t ↔ ∃ u, r = .next u ∧ t = u.tick := by
  cases r with
  | next u => simp [finish, eq_comm]
  | fault e => cases e
  | refused e => simp [finish]

/-- Everything a step can do: nothing but report, run an empty body, or run its instruction's body; the timers follow a fetch. -/
theorem step_cases {s t : State} (h : step s = .next t) :
    (4094 < s.pc.toNat ∧ ∃ c, s.noFetch = some c ∧ t = s.raise c) ∨
    (s.pc.toNat ≤ 4094 ∧ decodeWord s.wordAtPc = none ∧ t = (s.fetched.raise (.unknownInstruction s.wordAtPc)).tick) ∨
    (s.pc.toNat ≤ 4094 ∧ ∃ i u, decodeWord s.wordAtPc = some i ∧ exec i s.fetched = .next u ∧ t = u.tick) := by
  unfold step at h
  cases hf : s.noFetch with
  | some c =>
    refine .inl ⟨?_, c, rfl, ?_⟩
    · by_contra hle
      rw [noFetch_none.2 (by omega)] at hf
      cases hf
    · rw [hf] at h
      simpa [eq_comm] using h
  | none =>
    have hpc := noFetch_none.1 hf
    rw [hf] at h
    cases hd : decodeWord s.wordAtPc with
    | none =>
      rw [hd] at h
      exact .inr (.inl ⟨hpc, rfl, by simpa [eq_comm] using h⟩)
    | some i =>
      rw [hd] at h
      obtain ⟨u, hu, ht⟩ := finish_next.1 h
      exact .inr (.inr ⟨hpc, i, u, rfl, hu, ht⟩)

end Sys2Proof.Machine
end

