-- ==== Sys2Proof/Laws/PerInstr.lean ====
section
/-!
SUPPORT. The family FixedBits: the encoding of an instruction matches its row of the opcode map (30_encoding.md R73), one lemma per
constructor.
-/

namespace Sys2Proof.Laws.FixedBits

/-- The encoding has the row's fixed bits under the row's mask (R73). -/
def Statement (i : Instr) : Prop := encode i &&& (rowOf i).1 = (rowOf i).2

theorem regBits_zero : regBits 0 = 0#4 := rfl

/-- An address leaves the group alone. -/
theorem encodeA_group (g : BitVec 4) (nnn : Addr) : encodeA g nnn &&& 0xF000 = encodeA g 0 := by
  apply BitVec.eq_of_getLsbD_eq
  intro k hk
  simp only [encodeA, BitVec.getLsbD_and, BitVec.getLsbD_append]
  interval_cases k <;> simp

/-- A register and an immediate leave the group alone. -/
theorem encodeXK_group (g : BitVec 4) (x : Reg) (kk : Byte) : encodeXK g x kk &&& 0xF000 = encodeXK g 0 0 := by
  apply BitVec.eq_of_getLsbD_eq
  intro k hk
  simp only [encodeXK, BitVec.getLsbD_and, BitVec.getLsbD_append]
  interval_cases k <;> simp [regBits_zero]

/-- A register leaves the group and the low byte alone. -/
theorem encodeXS_key (g : BitVec 4) (x : Reg) (lo8 : Byte) : encodeXS g x lo8 &&& 0xF0FF = encodeXS g 0 lo8 := by
  apply BitVec.eq_of_getLsbD_eq
  intro k hk
  simp only [encodeXS, BitVec.getLsbD_and, BitVec.getLsbD_append]
  interval_cases k <;> simp [regBits_zero]

/-- Two registers and a nibble leave the group alone. -/
theorem encodeXYS_group (g : BitVec 4) (x y : Reg) (lo : BitVec 4) : encodeXYS g x y lo &&& 0xF000 = encodeXYS g 0 0 0 := by
  apply BitVec.eq_of_getLsbD_eq
  intro k hk
  simp only [encodeXYS, BitVec.getLsbD_and, BitVec.getLsbD_append]
  interval_cases k <;> simp [regBits_zero]

/-- Two registers leave the group and the low nibble alone. -/
theorem encodeXYS_key (g : BitVec 4) (x y : Reg) (lo : BitVec 4) : encodeXYS g x y lo &&& 0xF00F = encodeXYS g 0 0 lo := by
  apply BitVec.eq_of_getLsbD_eq
  intro k hk
  simp only [encodeXYS, BitVec.getLsbD_and, BitVec.getLsbD_append]
  interval_cases k <;> simp [regBits_zero]

theorem clearScreen : Statement .clearScreen := encodeXS_key 0x0 0 0xE0
theorem ret : Statement .ret := encodeXS_key 0x0 0 0xEE
theorem jump (nnn : Addr) : Statement (.jump nnn) := encodeA_group 0x1 nnn
theorem call (nnn : Addr) : Statement (.call nnn) := encodeA_group 0x2 nnn
theorem skipEqImm (x : Reg) (kk : Byte) : Statement (.skipEqImm x kk) := encodeXK_group 0x3 x kk
theorem skipNeImm (x : Reg) (kk : Byte) : Statement (.skipNeImm x kk) := encodeXK_group 0x4 x kk
theorem skipEqReg (x y : Reg) : Statement (.skipEqReg x y) := encodeXYS_group 0x5 x y 0
theorem loadImm (x : Reg) (kk : Byte) : Statement (.loadImm x kk) := encodeXK_group 0x6 x kk
theorem addImm (x : Reg) (kk : Byte) : Statement (.addImm x kk) := encodeXK_group 0x7 x kk
theorem regToReg (x y : Reg) : Statement (.regToReg x y) := encodeXYS_key 0x8 x y 0x0
theorem orReg (x y : Reg) : Statement (.orReg x y) := encodeXYS_key 0x8 x y 0x1
theorem andReg (x y : Reg) : Statement (.andReg x y) := encodeXYS_key 0x8 x y 0x2
theorem xorReg (x y : Reg) : Statement (.xorReg x y) := encodeXYS_key 0x8 x y 0x3
theorem addReg (x y : Reg) : Statement (.addReg x y) := encodeXYS_key 0x8 x y 0x4
theorem subRegFwd (x y : Reg) : Statement (.subRegFwd x y) := encodeXYS_key 0x8 x y 0x5
theorem shiftRight (x : Reg) : Statement (.shiftRight x) := encodeXYS_key 0x8 x 0 0x6
theorem subRegRev (x y : Reg) : Statement (.subRegRev x y) := encodeXYS_key 0x8 x y 0x7
theorem shiftLeft (x : Reg) : Statement (.shiftLeft x) := encodeXYS_key 0x8 x 0 0xE
theorem skipNeReg (x y : Reg) : Statement (.skipNeReg x y) := encodeXYS_group 0x9 x y 0
theorem setIndex (nnn : Addr) : Statement (.setIndex nnn) := encodeA_group 0xA nnn
theorem jumpOffset (nnn : Addr) : Statement (.jumpOffset nnn) := encodeA_group 0xB nnn
theorem randomAnd (x : Reg) (kk : Byte) : Statement (.randomAnd x kk) := encodeXK_group 0xC x kk
theorem drawSprite (x y : Reg) (n : Nat) : Statement (.drawSprite x y n) := encodeXYS_group 0xD x y (BitVec.ofNat 4 n)
theorem skipIfKey (x : Reg) : Statement (.skipIfKey x) := encodeXS_key 0xE x 0x9E
theorem skipIfNotKey (x : Reg) : Statement (.skipIfNotKey x) := encodeXS_key 0xE x 0xA1
theorem readDelay (x : Reg) : Statement (.readDelay x) := encodeXS_key 0xF x 0x07
theorem waitKey (x : Reg) : Statement (.waitKey x) := encodeXS_key 0xF x 0x0A
theorem setDelay (x : Reg) : Statement (.setDelay x) := encodeXS_key 0xF x 0x15
theorem setSound (x : Reg) : Statement (.setSound x) := encodeXS_key 0xF x 0x18
theorem addToIndex (x : Reg) : Statement (.addToIndex x) := encodeXS_key 0xF x 0x1E
theorem fontChar (x : Reg) : Statement (.fontChar x) := encodeXS_key 0xF x 0x29
theorem storeBcd (x : Reg) : Statement (.storeBcd x) := encodeXS_key 0xF x 0x33
theorem storeRegs (x : Reg) : Statement (.storeRegs x) := encodeXS_key 0xF x 0x55
theorem loadRegs (x : Reg) : Statement (.loadRegs x) := encodeXS_key 0xF x 0x65

end Sys2Proof.Laws.FixedBits
end

