-- ==== Sys2Proof/Tests/Slice0.lean ====
section
/-!
SUPPORT. Tests: what is refused as ill formed, words written out bit by bit, one step per instruction with the values of
spec/95_test_vectors.md (its tables S and T), and a witness for every statement that has hypotheses.
-/

namespace Sys2Proof.Tests

open Sys2Proof Sys2Proof.Machine

-- ==== helpers ====

/-- The next state, if there is one. -/
def nextOf : Result → Option State
  | .next t => some t
  | .fault _ => none
  | .refused _ => none

/-- The reset state with some registers set. -/
def regs (l : List (Reg × Byte)) : State := l.foldl (fun s p => s.setReg p.1 p.2) State.reset

/-- Bytes put into memory from `a` on. -/
def bytesAt (a : Nat) (l : List Byte) (s : State) : State := s.setMem (s.mem.writeRange a l)

/-- What one step makes of a state with the word at `PC`. -/
def after (w : Word) (s : State) : Option State := nextOf (step (s.placeWord w))

/-- The indices of the display cells that are 1, among the first `n`. -/
def cellsOn (a n : Nat) (s : State) : List Nat := (List.range' a n).filter (fun c => s.disp.cell c)

-- ==== WellFormed (R65, R74) ====

/-- The one check: a row count beyond its 4-bit field is refused. -/
theorem test_illFormed_drawSprite : (Instr.drawSprite 0 0 16).wellFormed = false := by decide

theorem test_wellFormed_drawSprite : (Instr.drawSprite 15 15 15).wellFormed = true ∧ (Instr.drawSprite 0 0 0).wellFormed = true := by decide

-- ==== decoding: each row of R73, bit by bit: group, x, y or kk or nnn, key ====

theorem test_decode_group0 :
    decodeWord 0b0000_0000_1110_0000 = some .clearScreen ∧ decodeWord 0b0000_0101_1110_0000 = some .clearScreen ∧
    decodeWord 0b0000_0000_1110_1110 = some .ret ∧ decodeWord 0b0000_0000_1110_0001 = none ∧
    decodeWord 0b0000_0001_0010_0011 = none := by decide

theorem test_decode_control :
    decodeWord 0b0001_1010_1011_1100 = some (.jump 0xABC) ∧ decodeWord 0b0010_1010_1011_1100 = some (.call 0xABC) ∧
    decodeWord 0b0011_0101_0100_0010 = some (.skipEqImm 5 0x42) ∧ decodeWord 0b0100_0101_0100_0010 = some (.skipNeImm 5 0x42) ∧
    decodeWord 0b0101_0001_0010_0000 = some (.skipEqReg 1 2) ∧ decodeWord 0b0101_0001_0010_1111 = some (.skipEqReg 1 2) ∧
    decodeWord 0b1001_0001_0010_0000 = some (.skipNeReg 1 2) ∧ decodeWord 0b1001_0001_0010_0111 = some (.skipNeReg 1 2) ∧
    decodeWord 0b1011_0010_1111_0000 = some (.jumpOffset 0x2F0) := by decide

theorem test_decode_immediates :
    decodeWord 0b0110_0011_0010_1010 = some (.loadImm 3 0x2A) ∧ decodeWord 0b0111_0011_0010_1010 = some (.addImm 3 0x2A) ∧
    decodeWord 0b1100_0011_0000_1111 = some (.randomAnd 3 0x0F) := by decide

theorem test_decode_group8 :
    decodeWord 0b1000_0001_0010_0000 = some (.regToReg 1 2) ∧ decodeWord 0b1000_0001_0010_0001 = some (.orReg 1 2) ∧
    decodeWord 0b1000_0001_0010_0010 = some (.andReg 1 2) ∧ decodeWord 0b1000_0001_0010_0011 = some (.xorReg 1 2) ∧
    decodeWord 0b1000_0001_0010_0100 = some (.addReg 1 2) ∧ decodeWord 0b1000_0001_0010_0101 = some (.subRegFwd 1 2) ∧
    decodeWord 0b1000_0001_0010_0110 = some (.shiftRight 1) ∧ decodeWord 0b1000_0001_0010_0111 = some (.subRegRev 1 2) ∧
    decodeWord 0b1000_0001_0010_1110 = some (.shiftLeft 1) ∧ decodeWord 0b1000_0001_0010_1000 = none ∧
    decodeWord 0b1000_0001_0010_1111 = none := by decide

theorem test_decode_index_and_sprite :
    decodeWord 0b1010_0010_1111_0000 = some (.setIndex 0x2F0) ∧ decodeWord 0b1101_0000_0001_0101 = some (.drawSprite 0 1 5) := by decide

theorem test_decode_groupE :
    decodeWord 0b1110_0010_1001_1110 = some (.skipIfKey 2) ∧ decodeWord 0b1110_0010_1010_0001 = some (.skipIfNotKey 2) ∧
    decodeWord 0b1110_0001_1001_1111 = none := by decide

theorem test_decode_groupF :
    decodeWord 0b1111_0011_0000_0111 = some (.readDelay 3) ∧ decodeWord 0b1111_0101_0000_1010 = some (.waitKey 5) ∧
    decodeWord 0b1111_0011_0001_0101 = some (.setDelay 3) ∧ decodeWord 0b1111_0011_0001_1000 = some (.setSound 3) ∧
    decodeWord 0b1111_0001_0001_1110 = some (.addToIndex 1) ∧ decodeWord 0b1111_0100_0010_1001 = some (.fontChar 4) ∧
    decodeWord 0b1111_0010_0011_0011 = some (.storeBcd 2) ∧ decodeWord 0b1111_0010_0101_0101 = some (.storeRegs 2) ∧
    decodeWord 0b1111_0010_0110_0101 = some (.loadRegs 2) ∧ decodeWord 0b1111_0001_0111_0101 = none := by decide

/-- Bytes in memory order, high byte first (R47); one byte is no word. -/
theorem test_decode_bytes :
    decode [0x63, 0x2A, 0x99] = .instr (.loadImm 3 0x2A) [0x99] ∧ decode [0x81, 0x28] = .unknown 0x8128 ∧ decode [0x63] = .truncated := by
  decide

theorem test_decodeTableWord : decodeTableWord 16 0x632A = some (.loadImm 3 0x2A) ∧ decodeTableWord 16 0x8128 = none := by decide

-- ==== reset and load (S1, S9, T7) ====

theorem test_reset : State.reset.mem.wf = true ∧ State.reset.pc = 0x200 ∧ State.reset.mem.read 0 = 0xF0 ∧
    State.reset.mem.read 79 = 0x80 ∧ State.reset.mem.read 80 = 0 := by decide

/-- T7: a load of 4 bytes, then of 2: the rest of the first stays. -/
theorem test_load : (fun s : State => (s.mem.readRange 0x200 4, s.pc))
    (loadProgram 2 [0x11, 0x22] (loadProgram 4 [0xAA, 0xBB, 0xCC, 0xDD] State.reset).2).2 = ([0x11, 0x22, 0xCC, 0xDD], 0x200) := by decide

/-- S9: the bound of a load. -/
theorem test_load_bound : loadError 3584 3584 = none ∧ loadError 3585 3585 = some .capacityExceeded ∧
    loadError 4 3 = some .ioFailure ∧ loadError 0 0 = none := by decide

theorem test_withFetchWord : (nextOf (step (State.reset.withFetchWord 16 0x632A))).map (fun t => (t.reg 3, t.pc)) = some (0x2A, 0x202) := by
  decide

-- ==== the step cycle (T1) ====

theorem test_step_unknown : (after 0x0000 ((State.reset.setDt 3).setSt 1)).map (fun t => (t.pc, t.dt, t.st, t.report)) =
    some (0x202, 2, 0, .unknownInstruction 0) := by decide

theorem test_step_odd : (after 0x6107 (State.reset.setPc 0x201)).map (fun t => (t.reg 1, t.pc)) = some (7, 0x203) := by decide

theorem test_step_top : (after 0x6101 (State.reset.setPc 0xFFE)).map (fun t => (t.reg 1, t.pc, t.report)) = some (1, 0x1000, .none) := by
  decide

theorem test_step_last : nextOf (step ((State.reset.setPc 0xFFF).setDt 9)) =
    some (((State.reset.setPc 0xFFF).setDt 9).raise (.fetchOutOfRange 0xFFF)) := by decide

theorem test_step_halted : nextOf (step ((State.reset.setPc 0x1000).setDt 9)) =
    some (((State.reset.setPc 0x1000).setDt 9).raise (.halted 0x1000)) := by decide

-- ==== control transfer (T2) ====

theorem test_ret : (after 0x00EE { State.reset with sp := 2, stack := (State.reset.stack.set 1 0xABC).set 0 0x204 }).map
    (fun t => (t.pc, t.sp, t.stack.get 1)) = some (0xABC, 1, 0xABC) := by decide

theorem test_ret_empty : (after 0x00EE State.reset).map (fun t => (t.pc, t.sp, t.report)) = some (0x202, 0, .stackUnderflow 0x202) := by decide

theorem test_jump : (after 0x1FFF State.reset).map (fun t => t.pc) = some 0xFFF := by decide

theorem test_call : (after 0x2ABC { State.reset with sp := 15 }).map (fun t => (t.pc, t.sp, t.stack.get 15)) = some (0xABC, 16, 0x202) := by
  decide

theorem test_call_full : (after 0x2ABC { State.reset with sp := 16 }).map (fun t => (t.pc, t.sp, t.stack.get 15, t.report)) =
    some (0x202, 16, 0, .stackOverflow 0x202) := by decide

theorem test_skipEqImm : (after 0x3542 (regs [(5, 0x42)])).map (fun t => t.pc) = some 0x204 ∧
    (after 0x3543 (regs [(5, 0x42)])).map (fun t => t.pc) = some 0x202 := by decide

/-- T2: a skip from the last word leaves `PC` at 0x1002. -/
theorem test_skipEqImm_top : (after 0x3100 (State.reset.setPc 0xFFE)).map (fun t => t.pc) = some 0x1002 := by decide

theorem test_skipNeImm : (after 0x4542 (regs [(5, 0x42)])).map (fun t => t.pc) = some 0x202 ∧
    (after 0x4500 (regs [(5, 0x42)])).map (fun t => t.pc) = some 0x204 := by decide

theorem test_skipEqReg : (after 0x512F (regs [(1, 9), (2, 9)])).map (fun t => t.pc) = some 0x204 ∧
    (after 0x5120 (regs [(1, 9), (2, 8)])).map (fun t => t.pc) = some 0x202 := by decide

theorem test_skipNeReg : (after 0x9120 (regs [(1, 9), (2, 8)])).map (fun t => t.pc) = some 0x204 ∧
    (after 0x9330 (regs [(3, 7)])).map (fun t => t.pc) = some 0x202 := by decide

theorem test_jumpOffset : (after 0xBFFF (regs [(0, 0xFF)])).map (fun t => t.pc) = some 0x10FE := by decide

theorem test_jumpOffset_v0 : (after 0xB2F0 (regs [(0, 4), (2, 0x99)])).map (fun t => t.pc) = some 0x2F4 := by decide

-- ==== registers, arithmetic, logic (S3 to S5, T3) ====

theorem test_loadImm : (after 0x61FF State.reset).map (fun t => t.reg 1) = some 0xFF := by decide

theorem test_addImm : (after 0x7102 (regs [(1, 0xFF), (15, 7)])).map (fun t => (t.reg 1, t.reg 15)) = some (1, 7) := by decide

theorem test_regToReg : (after 0x8120 (regs [(1, 1), (2, 2)])).map (fun t => (t.reg 1, t.reg 2)) = some (2, 2) := by decide

theorem test_orReg : (after 0x8121 (regs [(1, 0xF0), (2, 0x3C)])).map (fun t => t.reg 1) = some 0xFC := by decide

theorem test_andReg : (after 0x8122 (regs [(1, 0xF0), (2, 0x3C)])).map (fun t => t.reg 1) = some 0x30 := by decide

theorem test_xorReg : (after 0x8123 (regs [(1, 0xF0), (2, 0x3C)])).map (fun t => t.reg 1) = some 0xCC := by decide

theorem test_addReg : (after 0x8124 (regs [(1, 250), (2, 10)])).map (fun t => (t.reg 1, t.reg 15)) = some (4, 1) ∧
    (after 0x8124 (regs [(1, 10), (2, 20)])).map (fun t => (t.reg 1, t.reg 15)) = some (30, 0) := by decide

/-- T3: with `x = 15` the flag stays; with `y = 15` the old `VF` is the addend. -/
theorem test_addReg_vf : (after 0x8F24 (regs [(15, 0xFF), (2, 0xFF)])).map (fun t => t.reg 15) = some 1 ∧
    (after 0x81F4 (regs [(1, 0x10), (15, 3)])).map (fun t => (t.reg 1, t.reg 15)) = some (0x13, 0) := by decide

theorem test_subRegFwd : (after 0x8125 (regs [(1, 10), (2, 10)])).map (fun t => (t.reg 1, t.reg 15)) = some (0, 1) ∧
    (after 0x8125 (regs [(1, 0), (2, 255)])).map (fun t => (t.reg 1, t.reg 15)) = some (1, 0) := by decide

/-- T3: with `x = 15` the difference stays; with `y = 15` the old `VF` is the subtrahend. -/
theorem test_subRegFwd_vf : (after 0x8F25 (regs [(15, 5), (2, 6)])).map (fun t => t.reg 15) = some 0xFF ∧
    (after 0x81F5 (regs [(1, 0x10), (15, 0x20)])).map (fun t => (t.reg 1, t.reg 15)) = some (0xF0, 0) := by decide

theorem test_shiftRight : (after 0x8126 (regs [(1, 0x11), (2, 0xEE)])).map (fun t => (t.reg 1, t.reg 2, t.reg 15)) = some (8, 0xEE, 1) := by
  decide

theorem test_shiftRight_vf : (after 0x8F26 (regs [(15, 0xFF)])).map (fun t => t.reg 15) = some 0x7F := by decide

theorem test_subRegRev : (after 0x8127 (regs [(1, 3), (2, 10)])).map (fun t => (t.reg 1, t.reg 15)) = some (7, 1) ∧
    (after 0x8127 (regs [(1, 10), (2, 3)])).map (fun t => (t.reg 1, t.reg 15)) = some (0xF9, 0) := by decide

theorem test_subRegRev_vf : (after 0x8F27 (regs [(15, 0x0A), (2, 3)])).map (fun t => t.reg 15) = some 0xF9 := by decide

theorem test_shiftLeft : (after 0x812E (regs [(1, 0x81), (2, 0xEE)])).map (fun t => (t.reg 1, t.reg 2, t.reg 15)) = some (2, 0xEE, 1) := by
  decide

theorem test_shiftLeft_vf : (after 0x8F2E (regs [(15, 0x81)])).map (fun t => t.reg 15) = some 2 := by decide

/-- R131: the byte is whatever the outside supplies, under the mask. -/
theorem test_randomAnd : (after 0xC30F State.reset).map (fun t => (t.reg 3, t.rndDraws)) = some (Config.rnd 0 &&& 0x0F, 1) := by rfl

/-- T3: a mask of 0 gives 0 whatever the byte is. -/
theorem test_randomAnd_zero : (after 0xC300 (regs [(3, 0xEE)])).map (fun t => t.reg 3) = some 0 := by
  exact congrArg some (BitVec.and_zero (x := Config.rnd 0))

-- ==== index and memory (T4) ====

theorem test_setIndex : (after 0xAFFF State.reset).map (fun t => t.i) = some 0xFFF := by decide

theorem test_addToIndex : (after 0xF11E ((regs [(1, 3)]).setIndex 0xFFE)).map (fun t => (t.i, t.reg 15)) = some (1, 1) ∧
    (after 0xF11E ((regs [(1, 0x10)]).setIndex 0x200)).map (fun t => (t.i, t.reg 15)) = some (0x210, 0) := by decide

theorem test_addToIndex_vf : (after 0xFF1E ((regs [(15, 5)]).setIndex 0x100)).map (fun t => (t.i, t.reg 15)) = some (0x105, 0) := by decide

theorem test_fontChar : (after 0xF429 (regs [(4, 0x0F)])).map (fun t => t.i) = some 0x04B ∧
    (after 0xF429 (regs [(4, 0xFF)])).map (fun t => t.i) = some 0x4FB := by decide

theorem test_storeBcd : (after 0xF233 ((regs [(2, 123)]).setIndex 0xFFD)).map (fun t => (t.mem.readRange 0xFFD 3, t.i)) =
    some ([1, 2, 3], 0xFFD) := by decide

theorem test_storeBcd_range : (after 0xF233 ((regs [(2, 123)]).setIndex 0xFFE)).map (fun t => (t.mem.readRange 0xFFE 2, t.report)) =
    some ([0, 0], .addressOutOfRange 0x1000) := by decide

theorem test_storeRegs : (after 0xF255 ((regs [(0, 1), (1, 2), (2, 3), (3, 4)]).setIndex 0x400)).map (fun t => (t.mem.readRange 0x400 4, t.i)) =
    some ([1, 2, 3, 0], 0x400) := by decide

theorem test_storeRegs_range : (after 0xF155 ((regs [(0, 1), (1, 2)]).setIndex 0xFFF)).map (fun t => (t.mem.read 0xFFF, t.report)) =
    some (0, .addressOutOfRange 0x1000) := by decide

theorem test_loadRegs : (after 0xF265 (bytesAt 0x400 [9, 8, 7, 6] ((regs [(3, 0x55)]).setIndex 0x400))).map
    (fun t => ([t.reg 0, t.reg 1, t.reg 2, t.reg 3], t.i)) = some ([9, 8, 7, 0x55], 0x400) := by decide

theorem test_loadRegs_range : (after 0xF165 ((regs [(0, 1), (1, 2)]).setIndex 0xFFF)).map (fun t => (t.reg 0, t.reg 1, t.report)) =
    some (1, 2, .addressOutOfRange 0x1000) := by decide

-- ==== display (S7, T5) ====

theorem test_clearScreen : (after 0x05E0 (State.reset.setDisp (State.reset.disp.set 31 0x8000000000000001))).map (fun t => t.disp) =
    some Display.clear := by decide

/-- T5: clipped at the right edge, then on row 1 nothing: the start column is 60. -/
theorem test_drawSprite_clip : (after 0xD011 (bytesAt 0x300 [0xFF] ((regs [(0, 60)]).setIndex 0x300))).map
    (fun t => (cellsOn 50 80 t, t.reg 15)) = some ([60, 61, 62, 63], 0) := by decide

/-- T5: cell 3 is turned off and collides. -/
theorem test_drawSprite_collision : (after 0xD011 (bytesAt 0x300 [0xF0] ((State.reset.setIndex 0x300).setDisp (State.reset.disp.set 0 8)))).map
    (fun t => (cellsOn 0 64 t, t.reg 15)) = some ([0, 1, 2], 1) := by decide

-- ==== keypad and timers (S8, T6) ====

/-- The reset state with some keys pressed. -/
def keys (l : List (Fin 16)) (s : State) : State := setInput (Vector.ofFn (fun k => if k ∈ l then 1 else 0)) s

theorem test_skipIfKey : (after 0xE29E (keys [5] (regs [(2, 5)]))).map (fun t => t.pc) = some 0x204 ∧
    (after 0xE29E (keys [2] (regs [(2, 5)]))).map (fun t => t.pc) = some 0x202 := by decide

theorem test_skipIfKey_range : (after 0xE29E (regs [(2, 16)])).map (fun t => (t.pc, t.report)) = some (0x202, .keyIndexOutOfRange 16) := by
  decide

theorem test_skipIfNotKey : (after 0xE2A1 (regs [(2, 5)])).map (fun t => t.pc) = some 0x204 ∧
    (after 0xE2A1 (keys [5] (regs [(2, 5)]))).map (fun t => t.pc) = some 0x202 := by decide

theorem test_skipIfNotKey_range : (after 0xE2A1 (regs [(2, 0xFF)])).map (fun t => (t.pc, t.report)) =
    some (0x202, .keyIndexOutOfRange 255) := by decide

theorem test_readDelay : (after 0xF307 (State.reset.setDt 7)).map (fun t => (t.reg 3, t.dt)) = some (7, 6) := by decide

theorem test_setDelay : (after 0xF315 ((regs [(3, 0)]).setDt 9)).map (fun t => t.dt) = some 0 ∧
    (after 0xF315 (regs [(3, 255)])).map (fun t => t.dt) = some 254 := by decide

theorem test_setSound : (after 0xF318 ((regs [(3, 2)]).setDt 10)).map (fun t => (t.st, t.dt)) = some (1, 9) := by decide

theorem test_waitKey : (after 0xF50A (keys [7, 9] State.reset)).map (fun t => (t.reg 5, t.pc)) = some (7, 0x202) := by decide

theorem test_waitKey_none : (after 0xF50A (State.reset.setDt 2)).map (fun t => (t.reg 5, t.pc, t.dt)) = some (0, 0x200, 1) := by decide

-- ==== host operations (R216, R217, T7) ====

theorem test_setInput : (setInput (Vector.ofFn (fun k => if k = 3 then 7 else 0)) (keys [5] State.reset)).key.toList =
    [false, false, false, true, false, false, false, false, false, false, false, false, false, false, false, false] := by decide

/-- T7: a reset puts the font back and forgets the keys. -/
theorem test_hostReset : (fun t : State => (t.mem.read 0, t.keyDown 2, t.pc)) (hostReset (keys [2] (bytesAt 0 [1] (State.reset.setPc 4)))) =
    (0xF0, false, 0x200) := by decide

-- ==== witnesses: for each statement with hypotheses, a state and operands that meet them ====
-- The operand hypotheses of the encodings (`h < 16`, `n < 16`, a word of a given value) are met at both ends.

theorem witness_DecodeOfEncode : (Instr.drawSprite 15 15 15).wellFormed = true ∧ Instr.clearScreen.wellFormed = true := by decide

theorem witness_EncodeOfDecode : decodeWord 0xD015 = some (.drawSprite 0 1 5) ∧ decodeWord 0x812E = some (.shiftLeft 1) := by decide

theorem witness_IgnoredBitsDoNotMatter : decodeWord 0x5120 = some (.skipEqReg 1 2) ∧
    0x512F &&& usedBits (.skipEqReg 1 2) = 0x5120 &&& usedBits (.skipEqReg 1 2) ∧ (0x512F : Word) ≠ 0x5120 := by decide

theorem witness_DecodesTo : (0x1FFF : Word).toNat = 0x1000 + (0xFFF : Addr).toNat ∧
    (0x9FFF : Word).toNat = 0x9000 + (15 : Reg).val * 256 + (15 : Reg).val * 16 + 15 ∧ (0x0FEE : Word).toNat = 15 * 256 + 0xEE := by decide

/-- Memory written, a slot at its bound, the last word that can be fetched; the step ends at 0x1002. -/
def nearTop : State := ({ State.reset with pc := 0xFFE, sp := 1, stack := State.reset.stack.set 0 0x1000 }).placeWord 0x3100

theorem witness_StepKeepsInvariant : Inv nearTop ∧ (nextOf (step nearTop)).map (fun t => t.pc) = some 0x1002 := by decide

/-- `PC` at its bound. -/
theorem witness_StepKeepsInvariant_halted : Inv (State.reset.setPc 4350) ∧ (nextOf (step (State.reset.setPc 4350))).isSome = true := by decide

theorem witness_StepRunsTheDecodedInstruction : nearTop.pc.toNat ≤ 4094 ∧
    decode [nearTop.mem.read nearTop.pc.toNat, nearTop.mem.read (nearTop.pc.toNat + 1)] = .instr (.skipEqImm 1 0) [] := by decide

theorem witness_UnknownWordStep : (State.reset.setPc 4094).pc.toNat ≤ 4094 ∧ decodeWord (State.reset.setPc 4094).wordAtPc = none := by decide

theorem witness_HaltedForEver : 4096 ≤ (State.reset.setPc 4096).pc.toNat := by decide

theorem witness_LastAddressNeverFetches : (State.reset.setPc 4095).pc.toNat = 4095 := by decide

theorem witness_IrHoldsTheFetchedWord : nearTop.pc.toNat ≤ 4094 ∧ (nextOf (step nearTop)).map (fun t => t.ir) = some 0x3100 := by decide

/-- Both clauses of each timer: a fetch that sets it, a fetch that does not, and no fetch at 4095. -/
theorem witness_TimersCountEveryFetchedStep :
    (after 0xF315 (regs [(3, 255)])).map (fun t => t.dt) = some 254 ∧ (after 0xF318 (regs [(3, 1)])).map (fun t => t.st) = some 0 ∧
    (after 0x1FFF ((State.reset.setPc 0xFFE).setDt 1)).map (fun t => t.dt) = some 0 ∧
    (nextOf (step ((State.reset.setPc 0xFFF).setSt 9))).map (fun t => t.st) = some 9 := by decide

theorem witness_IrAndReportAreNeverRead : nearTop.pc.toNat ≤ 4094 ∧ (nextOf (step nearTop)).isSome = true := by decide

/-- A return with an empty stack: the word is known, the step answers and reports. -/
theorem witness_ConditionLeavesNoPartialEffect : (State.reset.placeWord 0x00EE).pc.toNat ≤ 4094 ∧
    decodeWord (State.reset.placeWord 0x00EE).wordAtPc = some .ret ∧
    (nextOf (step (State.reset.placeWord 0x00EE))).map (fun t => decide (t.report ≠ .none)) = some true := by decide

/-- The body of an instruction at reset with `I = 0xFFE`: it answers, and reports what is expected. -/
def reported (i : Instr) (s : State) : Option Report := (nextOf (exec i s)).map (fun t => t.report)

/-- Each condition on both sides of its bound. -/
theorem witness_ConditionsAsTabled : State.reset.report = .none ∧
    reported .ret { State.reset with sp := 1 } = some .none ∧ reported .ret State.reset = some (.stackUnderflow 512) ∧
    reported (.call 0) { State.reset with sp := 15 } = some .none ∧ reported (.call 0) { State.reset with sp := 16 } = some (.stackOverflow 512) ∧
    reported (.storeBcd 0) (State.reset.setIndex 4093) = some .none ∧
    reported (.storeBcd 0) (State.reset.setIndex 4094) = some (.addressOutOfRange 4096) ∧
    reported (.loadRegs 1) (State.reset.setIndex 4094) = some .none ∧
    reported (.loadRegs 2) (State.reset.setIndex 4094) = some (.addressOutOfRange 4096) ∧
    reported (.drawSprite 0 0 0) (State.reset.setIndex 4095) = some .none ∧
    reported (.drawSprite 0 0 2) (State.reset.setIndex 4095) = some (.addressOutOfRange 4096) ∧
    reported (.skipIfKey 1) (regs [(1, 15)]) = some .none ∧ reported (.skipIfKey 1) (regs [(1, 16)]) = some (.keyIndexOutOfRange 16) := by decide

theorem witness_RegistersWrittenOnlyAsNamed : (nextOf (exec (.addReg 1 2) State.reset)).isSome = true ∧ mayWrite (.addReg 1 2) 2 = false ∧
    mayWrite (.loadRegs 3) 4 = false ∧ mayWrite (.loadRegs 3) 3 = true := by decide

theorem witness_StoresWrittenOnlyByTheirInstructions : (nextOf (exec (.jump 0) State.reset)).isSome = true ∧
    (∀ x, Instr.jump 0 ≠ .storeBcd x) ∧ (∀ x, Instr.jump 0 ≠ .storeRegs x) ∧ Instr.jump 0 ≠ .clearScreen ∧
    (∀ x y n, Instr.jump 0 ≠ .drawSprite x y n) ∧ (∀ nnn, Instr.jump 0 ≠ .call nnn) :=
  ⟨rfl, nofun, nofun, nofun, nofun, nofun⟩

theorem witness_SpecialRegistersWrittenOnlyAsNamed : (nextOf (exec (.orReg 1 2) State.reset)).isSome = true ∧
    (∀ nnn, Instr.orReg 1 2 ≠ .setIndex nnn) ∧ (∀ x, Instr.orReg 1 2 ≠ .addToIndex x) ∧ (∀ x, Instr.orReg 1 2 ≠ .fontChar x) ∧
    (∀ nnn, Instr.orReg 1 2 ≠ .call nnn) ∧ Instr.orReg 1 2 ≠ .ret ∧ mayMovePc (.orReg 1 2) = false ∧
    (∀ x, Instr.orReg 1 2 ≠ .setDelay x) ∧ (∀ x, Instr.orReg 1 2 ≠ .setSound x) :=
  ⟨rfl, nofun, nofun, nofun, nofun, nofun, rfl, nofun, nofun⟩

theorem witness_CallPushesAndJumps : ({ State.reset with sp := 15 } : State).sp.val < 16 ∧ ({ State.reset with sp := 16 } : State).sp.val = 16 := by
  decide

theorem witness_ReturnPops : 0 < ({ State.reset with sp := 16 } : State).sp.val ∧ 0 < ({ State.reset with sp := 1 } : State).sp.val ∧
    State.reset.sp.val = 0 ∧ (15 : Fin 16).val = ({ State.reset with sp := 16 } : State).sp.val - 1 := by decide

/-- The callee changed a register and the display, not the stack. -/
theorem witness_CallThenReturnComesBack : ({ State.reset with sp := 15 } : State).sp.val < 16 ∧
    (nextOf (exec (.call 0x300) { State.reset with sp := 15 })).map (fun t => decide (((t.setReg 1 9).setPc 0x310).sp = t.sp)) = some true := by
  decide

theorem witness_SkipsOnRegisters : 0 < 16 ∧ 15 < 16 ∧ decodeWord 0x5120 = some (.skipEqReg 1 2) ∧ decodeWord 0x9EFF = some (.skipNeReg 14 15) := by
  decide

theorem witness_LoadAddAndMove : (15 : Reg) ≠ 0 ∧ decodeWord 0x6FFF = some (.loadImm 15 0xFF) ∧ decodeWord 0x70FF = some (.addImm 0 0xFF) ∧
    decodeWord 0x8FF0 = some (.regToReg 15 15) := by decide

theorem witness_LogicBitByBit : (15 : Reg) ≠ 0 ∧ decodeWord 0x8FF1 = some (.orReg 15 15) ∧ decodeWord 0x8012 = some (.andReg 0 1) ∧
    decodeWord 0x80F3 = some (.xorReg 0 15) := by decide

theorem witness_AddRegSumAndCarry : (1 : Reg) ≠ 15 ∧ (2 : Reg) ≠ 1 ∧ (2 : Reg) ≠ 15 ∧
    ((regs [(1, 255), (2, 0)]).reg 1).toNat + ((regs [(1, 255), (2, 0)]).reg 2).toNat = 255 ∧
    255 < ((regs [(1, 255), (2, 1)]).reg 1).toNat + ((regs [(1, 255), (2, 1)]).reg 2).toNat := by decide

theorem witness_SubtractAndNoBorrow : (14 : Reg) ≠ 15 ∧ (0 : Reg) ≠ 14 ∧ (0 : Reg) ≠ 15 ∧
    ((regs [(2, 7)]).reg 2).toNat ≤ ((regs [(14, 7)]).reg 14).toNat ∧ ¬ ((regs [(2, 8)]).reg 2).toNat ≤ ((regs [(14, 7)]).reg 14).toNat := by decide

theorem witness_ShiftsByOne : 15 < 16 ∧ (1 : Reg) ≠ 15 ∧ (2 : Reg) ≠ 1 ∧ decodeWord 0x81F6 = some (.shiftRight 1) ∧
    decodeWord 0x8F0E = some (.shiftLeft 15) := by decide

theorem witness_RandomAndMasksTheByte : (1 : Reg) ≠ 0 ∧ decodeWord 0xC0FF = some (.randomAnd 0 0xFF) := by decide

theorem witness_AddToIndexSumAndCarry : (1 : Reg) ≠ 15 ∧ ((regs [(1, 1)]).setIndex 0xFFE).i.toNat + ((regs [(1, 1)]).reg 1).toNat = 0xFFF ∧
    0xFFF < ((regs [(1, 1)]).setIndex 0xFFF).i.toNat + ((regs [(1, 1)]).reg 1).toNat := by decide

theorem witness_ClearScreenZeroesAllCells : 15 < 16 ∧ decodeWord 0x0FE0 = some .clearScreen ∧ 2047 < 2048 := by decide

theorem witness_TimerTransfers : (1 : Reg) ≠ 15 ∧ decodeWord 0xFF07 = some (.readDelay 15) ∧ decodeWord 0xF015 = some (.setDelay 0) ∧
    decodeWord 0xFF18 = some (.setSound 15) := by decide

theorem witness_StoreBcdWritesDigits : State.reset.mem.wf = true ∧ (State.reset.setIndex 4093).i.toNat + 3 ≤ 4096 := by decide

theorem witness_StoreRegsCopiesOut : State.reset.mem.wf = true ∧ (State.reset.setIndex 4080).i.toNat + (15 : Reg).val + 1 ≤ 4096 := by decide

theorem witness_LoadRegsCopiesIn : (State.reset.setIndex 4095).i.toNat + (0 : Reg).val + 1 ≤ 4096 ∧ (0 : Reg) < 15 := by decide

theorem witness_RangePastEndIsRefused : 4096 < (State.reset.setIndex 4094).i.toNat + 3 ∧
    4096 < (State.reset.setIndex 4095).i.toNat + (1 : Reg).val + 1 ∧ 0 < 2 ∧ 4096 < (State.reset.setIndex 4095).i.toNat + 2 := by decide

/-- `IR` after two steps of a state with the word at `PC`. -/
def nextIr (w : Word) (s : State) : Option Word := (after w s).bind (fun t => (nextOf (step t)).map (fun u => u.ir))

/-- store-regs and store-bcd at the highest `PC` and `I` that the clauses allow, and with an `I` that puts a middle byte first. -/
def storing (w : Word) (a : Addr) : State := (((regs [(0, 0x60), (1, 0x55), (2, 156)]).setPc 4092).setIndex a).placeWord w

theorem witness_StoredWordIsFetchedNext_storeRegs : (storing 0xF155 4094).mem.wf = true ∧ (storing 0xF155 4094).pc.toNat ≤ 4092 ∧
    decodeWord (storing 0xF155 4094).wordAtPc = some (.storeRegs 1) ∧ (storing 0xF155 4094).i.toNat + (1 : Reg).val + 1 ≤ 4096 ∧
    (storing 0xF155 4094).i.toNat + (0 : Reg).val = (storing 0xF155 4094).pc.toNat + 2 ∧
    (storing 0xF155 4094).i.toNat + (1 : Reg).val = (storing 0xF155 4094).pc.toNat + 3 := by decide

theorem witness_StoredWordIsFetchedNext_storeBcd : (storing 0xF233 4093).mem.wf = true ∧ (storing 0xF233 4093).pc.toNat ≤ 4092 ∧
    decodeWord (storing 0xF233 4093).wordAtPc = some (.storeBcd 2) ∧ (storing 0xF233 4093).i.toNat + 3 ≤ 4096 ∧
    (storing 0xF233 4093).i.toNat + 1 = (storing 0xF233 4093).pc.toNat + 2 ∧
    (storing 0xF233 4093).i.toNat + 2 = (storing 0xF233 4093).pc.toNat + 3 := by decide

/-- A load of two bytes over `PC` at 512, and one that ends at `PC`. -/
theorem witness_StoredWordIsFetchedNext_load : State.reset.mem.wf = true ∧ State.reset.pc.toNat ≤ 4094 ∧
    ([0x63, 0x2A] : List Byte).length ≤ 3584 ∧ 512 + 0 = State.reset.pc.toNat ∧ 512 + 1 = State.reset.pc.toNat + 1 ∧
    512 + 1 = (State.reset.setPc 513).pc.toNat := by decide

/-- P5's store, then its fetch: 0x6055 by store-regs; the digits 5 and 6 of 156 by store-bcd. -/
theorem test_stored_is_fetched : nextIr 0xF155 (storing 0xF155 4094) = some 0x6055 ∧ nextIr 0xF233 (storing 0xF233 4093) = some 0x0506 := by
  decide

theorem witness_DrawSpriteCellByCell : (0 = 0 ∨ (State.reset.setIndex 4095).i.toNat + 0 ≤ 4096) ∧
    (15 = 0 ∨ (State.reset.setIndex 4081).i.toNat + 15 ≤ 4096) := by decide

theorem witness_DrawTwiceRestoresTheDisplay : (1 : Reg) ≠ 15 ∧ (nextOf (exec (.drawSprite 1 2 5) State.reset)).isSome = true := by decide

theorem witness_SkipsOnKey : ((regs [(2, 15)]).reg 2).toNat = (15 : Fin 16).val ∧ 15 < ((regs [(2, 16)]).reg 2).toNat := by decide

theorem witness_WaitKeyTakesTheLeastKey : (keys [7, 9] State.reset).keyDown 7 = true ∧
    (∀ j : Fin 16, j < 7 → (keys [7, 9] State.reset).keyDown j = false) ∧ (∀ k : Fin 16, State.reset.keyDown k = false) := by decide

/-- Waiting at the last address that fetches, and a latch with keys 0 and 15. -/
theorem witness_WaitingUntilAKeyIsPressed : Waiting 15 ((State.reset.setPc 4094).placeWord 0xFF0A) ∧
    (Vector.ofFn (fun k : Fin 16 => if k = 15 then 1 else 0)).get 15 ≠ 0 ∧
    (∀ j : Fin 16, j < 15 → (Vector.ofFn (fun k : Fin 16 => if k = 15 then 1 else 0)).get j = 0) :=
  ⟨⟨by decide, by decide, by decide⟩, by decide, by decide⟩

theorem witness_LoadProgramAllOrNothing : State.reset.mem.wf = true ∧ (List.replicate 3584 (0xAA : Byte)).length ≤ 3584 ∧
    3584 < (List.replicate 3585 (0xAA : Byte)).length := by
  rw [List.length_replicate, List.length_replicate]
  decide

/-- A declared length at the capacity and one beyond it, with one byte delivered. -/
theorem witness_ShortReadIsRefused : ([0x12] : List Byte).length ≠ 3584 ∧ 3584 ≤ 3584 ∧ ([0x12] : List Byte).length ≠ 3585 ∧
    3584 < 3585 := by decide

theorem witness_HostOperationsKeepInvariant : Inv nearTop := by decide

end Sys2Proof.Tests
end

section
/-!
PROOFS. What an instruction's body leaves unchanged, and the statements about the state (10_state.md): which parts each instruction
may write (O20, O21, O22), the invariant (O9, O8), the reset values (O7), and that `IR` and the report are outputs only (O17).
-/

namespace Sys2Proof.Machine

-- ==== parts of the state, compared as data ====

/-- One part of the state is the same data before and after. For memory this says more than `SameField`, which compares what is
read: the canonical form goes with it. -/
def EqField : Field → State → State → Prop
  | .regs, s, t => t.v = s.v
  | .index, s, t => t.i = s.i
  | .pc, s, t => t.pc = s.pc
  | .sp, s, t => t.sp = s.sp
  | .stack, s, t => t.stack = s.stack
  | .delay, s, t => t.dt = s.dt
  | .sound, s, t => t.st = s.st
  | .memory, s, t => t.mem = s.mem
  | .display, s, t => t.disp = s.disp
  | .keys, s, t => t.key = s.key
  | .ir, s, t => t.ir = s.ir
  | .report, s, t => t.report = s.report
  | .draws, s, t => t.rndDraws = s.rndDraws

theorem EqField.trans {f : Field} {s t u : State} (h : EqField f s t) (h' : EqField f t u) : EqField f s u := by
  cases f <;> exact Eq.trans h' h

/-- Equal data reads the same. -/
theorem EqField.sameField {f : Field} {s t : State} (h : EqField f s t) : SameField f s t := by
  cases f with
  | regs => exact fun r => congrArg (·.get r) h
  | stack => exact fun k => congrArg (·.get k) h
  | memory => exact fun a => congrArg (·.read a) h
  | display => exact fun c => congrArg (·.cell c) h
  | keys => exact fun k => congrArg (·.get k) h
  | _ => exact h

/-- Every part but the listed ones is the same data: `SameExcept`, compared as data. -/
def ChangesOnly (fs : List Field) (s t : State) : Prop := ∀ f : Field, f ∉ fs → EqField f s t

theorem ChangesOnly.sameExcept {fs : List Field} {s t : State} (h : ChangesOnly fs s t) : SameExcept fs s t :=
  fun f hf => (h f hf).sameField

theorem ChangesOnly.trans {fs : List Field} {s t u : State} (h : ChangesOnly fs s t) (h' : ChangesOnly fs t u) : ChangesOnly fs s u :=
  fun f hf => (h f hf).trans (h' f hf)

-- ==== which parts an instruction may change ====

/-- The parts of the state that the body of an instruction may change: those its rule names, and the report where it can raise a
condition. `exec_changesOnly` ties it to `exec`. -/
def mayChange : Instr → List Field
  | .clearScreen => [.display]
  | .ret => [.pc, .sp, .report]
  | .call _ => [.pc, .sp, .stack, .report]
  | .jump _ | .jumpOffset _ | .skipEqImm _ _ | .skipNeImm _ _ | .skipEqReg _ _ | .skipNeReg _ _ => [.pc]
  | .skipIfKey _ | .skipIfNotKey _ => [.pc, .report]
  | .loadImm _ _ | .addImm _ _ | .regToReg _ _ | .orReg _ _ | .andReg _ _ | .xorReg _ _ | .addReg _ _ | .subRegFwd _ _
  | .shiftRight _ | .subRegRev _ _ | .shiftLeft _ | .readDelay _ => [.regs]
  | .randomAnd _ _ => [.regs, .draws]
  | .waitKey _ => [.regs, .pc]
  | .setDelay _ => [.delay]
  | .setSound _ => [.sound]
  | .setIndex _ | .fontChar _ => [.index]
  | .addToIndex _ => [.regs, .index]
  | .drawSprite _ _ _ => [.regs, .display, .report]
  | .storeBcd _ | .storeRegs _ => [.memory, .report]
  | .loadRegs _ => [.regs, .report]

-- ==== each operation changes only its own part ====

-- That the part is among the listed ones is a routine check against the table of an instruction, so the lemmas make it themselves.
section
variable {fs : List Field}

theorem changesOnly_setReg (s : State) (x : Reg) (u : Byte) (hf : .regs ∈ fs := by simp [mayChange]) :
    ChangesOnly fs s (s.setReg x u) := by
  intro f h
  cases f with
  | regs => exact absurd hf h
  | _ => simp [EqField]

theorem changesOnly_setRegs (s : State) (g : Reg → Byte) (hf : .regs ∈ fs := by simp [mayChange]) : ChangesOnly fs s (s.setRegs g) := by
  intro f h
  cases f with
  | regs => exact absurd hf h
  | _ => simp [EqField]

theorem changesOnly_setIndex (s : State) (a : Addr) (hf : .index ∈ fs := by simp [mayChange]) : ChangesOnly fs s (s.setIndex a) := by
  intro f h
  cases f with
  | index => exact absurd hf h
  | _ => simp [EqField]

theorem changesOnly_setPc (s : State) (a : Word) (hf : .pc ∈ fs := by simp [mayChange]) : ChangesOnly fs s (s.setPc a) := by
  intro f h
  cases f with
  | pc => exact absurd hf h
  | _ => simp [EqField]

theorem changesOnly_setDt (s : State) (u : Byte) (hf : .delay ∈ fs := by simp [mayChange]) : ChangesOnly fs s (s.setDt u) := by
  intro f h
  cases f with
  | delay => exact absurd hf h
  | _ => simp [EqField]

theorem changesOnly_setSt (s : State) (u : Byte) (hf : .sound ∈ fs := by simp [mayChange]) : ChangesOnly fs s (s.setSt u) := by
  intro f h
  cases f with
  | sound => exact absurd hf h
  | _ => simp [EqField]

theorem changesOnly_setMem (s : State) (m : Memory) (hf : .memory ∈ fs := by simp [mayChange]) : ChangesOnly fs s (s.setMem m) := by
  intro f h
  cases f with
  | memory => exact absurd hf h
  | _ => simp [EqField]

theorem changesOnly_setDisp (s : State) (d : Display) (hf : .display ∈ fs := by simp [mayChange]) : ChangesOnly fs s (s.setDisp d) := by
  intro f h
  cases f with
  | display => exact absurd hf h
  | _ => simp [EqField]

theorem changesOnly_nextRnd (s : State) (hf : .draws ∈ fs := by simp [mayChange]) : ChangesOnly fs s s.nextRnd := by
  intro f h
  cases f with
  | draws => exact absurd hf h
  | _ => simp [EqField]

theorem changesOnly_raise (s : State) (c : Report) (hf : .report ∈ fs := by simp [mayChange]) : ChangesOnly fs s (s.raise c) := by
  intro f h
  cases f with
  | report => exact absurd hf h
  | _ => simp [EqField]

theorem changesOnly_skipIf (s : State) (c : Bool) (hf : .pc ∈ fs := by simp [mayChange]) : ChangesOnly fs s (s.skipIf c) := by
  rw [skipIf_eq]
  exact changesOnly_setPc s _ hf

/-- What a call can do (R102, R205). -/
theorem callTo_cases (s : State) (a : Word) :
    (∃ h : s.sp.val < 16, s.callTo a = { s with stack := s.stack.set s.sp.val s.pc h, sp := ⟨s.sp.val + 1, by omega⟩, pc := a }) ∨
    s.callTo a = s.raise (.stackOverflow s.pc) := by
  by_cases h : s.sp.val < 16
  · exact .inl ⟨h, callTo_of_lt h⟩
  · exact .inr (callTo_full (by omega))

/-- What a return can do (R100, R206): `PC` becomes the top slot and `SP` goes down, or the empty stack is reported. -/
theorem returnToCaller_cases (s : State) :
    (∃ (n : Fin 17) (k : Fin 16), n.val + 1 = s.sp.val ∧ k.val = n.val ∧ s.returnToCaller = { s with sp := n, pc := s.stack.get k }) ∨
    s.returnToCaller = s.raise (.stackUnderflow s.pc) := by
  by_cases h : 0 < s.sp.val
  · exact .inl ⟨_, _, Nat.sub_add_cancel h, rfl, returnToCaller_of_pos h⟩
  · exact .inr (returnToCaller_empty (by omega))

theorem changesOnly_callTo (s : State) (a : Word) (hst : .stack ∈ fs := by simp [mayChange]) (hsp : .sp ∈ fs := by simp [mayChange])
    (hpc : .pc ∈ fs := by simp [mayChange]) (hr : .report ∈ fs := by simp [mayChange]) : ChangesOnly fs s (s.callTo a) := by
  obtain ⟨_, h⟩ | h := callTo_cases s a
  · rw [h]
    intro f hf
    cases f with
    | stack => exact absurd hst hf
    | sp => exact absurd hsp hf
    | pc => exact absurd hpc hf
    | _ => simp [EqField]
  · rw [h]
    exact changesOnly_raise s _ hr

theorem changesOnly_returnToCaller (s : State) (hsp : .sp ∈ fs := by simp [mayChange]) (hpc : .pc ∈ fs := by simp [mayChange])
    (hr : .report ∈ fs := by simp [mayChange]) : ChangesOnly fs s s.returnToCaller := by
  obtain ⟨_, _, _, _, h⟩ | h := returnToCaller_cases s
  · rw [h]
    intro f hf
    cases f with
    | sp => exact absurd hsp hf
    | pc => exact absurd hpc hf
    | _ => simp [EqField]
  · rw [h]
    exact changesOnly_raise s _ hr

/-- A guarded body runs inside memory or is refused (R42): what holds of both results holds of the guarded one. -/
theorem guardRange_induction {P : State → Prop} {s body : State} {len : Nat} (hbody : len = 0 ∨ s.i.toNat + len ≤ 4096 → P body)
    (hraise : ∀ c, P (s.raise c)) : P (s.guardRange len body) := by
  rw [guardRange_eq]
  split
  · next h => exact hbody h
  · exact hraise _

theorem changesOnly_guardRange {s body : State} {len : Nat} (h : ChangesOnly fs s body) (hf : .report ∈ fs := by simp [mayChange]) :
    ChangesOnly fs s (s.guardRange len body) :=
  guardRange_induction (fun _ => h) (fun c => changesOnly_raise s c hf)

end

-- ==== bodies that branch on the keypad ====

/-- A skip on a key skips, does not, or raises (R170, R208). -/
theorem execSkipIfKey_cases {x : Reg} {s t : State} (h : execSkipIfKey x s = .next t) : (∃ c, t = s.skipIf c) ∨ ∃ c, t = s.raise c := by
  unfold execSkipIfKey at h
  split at h
  · cases h; exact .inl ⟨_, rfl⟩
  · cases h; exact .inr ⟨_, rfl⟩

/-- The same for the other skip on a key (R171, R208). -/
theorem execSkipIfNotKey_cases {x : Reg} {s t : State} (h : execSkipIfNotKey x s = .next t) :
    (∃ c, t = s.skipIf c) ∨ ∃ c, t = s.raise c := by
  unfold execSkipIfNotKey at h
  split at h
  · cases h; exact .inl ⟨_, rfl⟩
  · cases h; exact .inr ⟨_, rfl⟩

/-- wait-key takes a key into `V[x]`, or goes back to itself (R173). -/
theorem execWaitKey_cases {x : Reg} {s t : State} (h : execWaitKey x s = .next t) :
    (∃ k, t = s.setReg x (keyByte k)) ∨ t = s.setPc (s.pc - 2) := by
  unfold execWaitKey at h
  split at h
  · cases h; exact .inl ⟨_, rfl⟩
  · cases h; exact .inr rfl

-- ==== the frame of every instruction ====

/-- The frame of every instruction: its body changes nothing but the parts listed for it. -/
theorem exec_changesOnly {i : Instr} {s t : State} (h : exec i s = .next t) : ChangesOnly (mayChange i) s t := by
  cases i with
  | clearScreen => cases h; exact changesOnly_setDisp s _
  | ret => cases h; exact changesOnly_returnToCaller s
  | call a => cases h; exact changesOnly_callTo s _
  | jump a | jumpOffset a => cases h; exact changesOnly_setPc s _
  | skipEqImm x a | skipNeImm x a | skipEqReg x a | skipNeReg x a => cases h; exact changesOnly_skipIf s _
  | skipIfKey x =>
    obtain ⟨c, rfl⟩ | ⟨c, rfl⟩ := execSkipIfKey_cases h
    · exact changesOnly_skipIf s c
    · exact changesOnly_raise s c
  | skipIfNotKey x =>
    obtain ⟨c, rfl⟩ | ⟨c, rfl⟩ := execSkipIfNotKey_cases h
    · exact changesOnly_skipIf s c
    · exact changesOnly_raise s c
  | loadImm x a | addImm x a | regToReg x a | orReg x a | andReg x a | xorReg x a => cases h; exact changesOnly_setReg s x _
  | readDelay x => cases h; exact changesOnly_setReg s x _
  | addReg x y | subRegFwd x y | subRegRev x y =>
    cases h; exact (changesOnly_setReg s _ _).trans (changesOnly_setReg _ _ _)
  | shiftRight x | shiftLeft x => cases h; exact (changesOnly_setReg s vf _).trans (changesOnly_setReg _ x _)
  | randomAnd x a => cases h; exact (changesOnly_setReg s x _).trans (changesOnly_nextRnd _)
  | waitKey x =>
    obtain ⟨k, rfl⟩ | rfl := execWaitKey_cases h
    · exact changesOnly_setReg s x _
    · exact changesOnly_setPc s _
  | setDelay x => cases h; exact changesOnly_setDt s _
  | setSound x => cases h; exact changesOnly_setSt s _
  | setIndex a | fontChar a => cases h; exact changesOnly_setIndex s _
  | addToIndex x => cases h; exact (changesOnly_setReg s vf _).trans (changesOnly_setIndex _ _)
  | drawSprite x y n =>
    cases h; exact changesOnly_guardRange ((changesOnly_setDisp s _).trans (changesOnly_setReg _ vf _))
  | storeBcd x | storeRegs x => cases h; exact changesOnly_guardRange (changesOnly_setMem s _)
  | loadRegs x => cases h; exact changesOnly_guardRange (changesOnly_setRegs s _)

theorem exec_sameExcept {i : Instr} {s t : State} (h : exec i s = .next t) : SameExcept (mayChange i) s t :=
  (exec_changesOnly h).sameExcept

-- ==== the table, part by part ====

theorem index_mem_mayChange {i : Instr} :
    .index ∈ mayChange i ↔ (∃ nnn, i = .setIndex nnn) ∨ (∃ x, i = .addToIndex x) ∨ ∃ x, i = .fontChar x := by
  cases i <;> simp [mayChange]

theorem pc_mem_mayChange {i : Instr} : .pc ∈ mayChange i ↔ mayMovePc i = true := by cases i <;> simp [mayChange, mayMovePc]

theorem sp_mem_mayChange {i : Instr} : .sp ∈ mayChange i ↔ (∃ nnn, i = .call nnn) ∨ i = .ret := by cases i <;> simp [mayChange]

theorem stack_mem_mayChange {i : Instr} : .stack ∈ mayChange i ↔ ∃ nnn, i = .call nnn := by cases i <;> simp [mayChange]

theorem delay_mem_mayChange {i : Instr} : .delay ∈ mayChange i ↔ ∃ x, i = .setDelay x := by cases i <;> simp [mayChange]

theorem sound_mem_mayChange {i : Instr} : .sound ∈ mayChange i ↔ ∃ x, i = .setSound x := by cases i <;> simp [mayChange]

theorem memory_mem_mayChange {i : Instr} : .memory ∈ mayChange i ↔ (∃ x, i = .storeBcd x) ∨ ∃ x, i = .storeRegs x := by
  cases i <;> simp [mayChange]

theorem display_mem_mayChange {i : Instr} : .display ∈ mayChange i ↔ i = .clearScreen ∨ ∃ x y n, i = .drawSprite x y n := by
  cases i <;> simp [mayChange]

theorem keys_notMem_mayChange (i : Instr) : .keys ∉ mayChange i := by cases i <;> simp [mayChange]

theorem ir_notMem_mayChange (i : Instr) : .ir ∉ mayChange i := by cases i <;> simp [mayChange]

-- ==== registers (R12, R19) ====

theorem reg_setReg_ne {s : State} {x r : Reg} (h : r ≠ x) (u : Byte) : (s.setReg x u).reg r = s.reg r := by
  rw [State.reg_setReg, if_neg h]

/-- Two registers written, in either order: every other register is unchanged. -/
theorem reg_setReg_setReg_ne {s : State} {x y r : Reg} (hx : r ≠ x) (hy : r ≠ y) (u u' : Byte) :
    ((s.setReg x u).setReg y u').reg r = s.reg r := by
  rw [reg_setReg_ne hy, reg_setReg_ne hx]

/-- A body writes no register but those `mayWrite` names. -/
theorem exec_reg_of_not_mayWrite {i : Instr} {s t : State} {r : Reg} (h : exec i s = .next t) (hr : mayWrite i r = false) :
    t.reg r = s.reg r := by
  cases i with
  | loadImm x a | addImm x a | regToReg x a | orReg x a | andReg x a | xorReg x a =>
    cases h; exact reg_setReg_ne (of_decide_eq_false hr) _
  | readDelay x => cases h; exact reg_setReg_ne (of_decide_eq_false hr) _
  | randomAnd x a => cases h; exact reg_setReg_ne (of_decide_eq_false hr) _
  | addReg x y =>
    obtain ⟨hx, hvf⟩ := not_or.1 (of_decide_eq_false hr)
    cases h; exact reg_setReg_setReg_ne hx hvf _ _
  | subRegFwd x y | subRegRev x y =>
    obtain ⟨hx, hvf⟩ := not_or.1 (of_decide_eq_false hr)
    cases h; exact reg_setReg_setReg_ne hvf hx _ _
  | shiftRight x | shiftLeft x =>
    obtain ⟨hx, hvf⟩ := not_or.1 (of_decide_eq_false hr)
    cases h; exact reg_setReg_setReg_ne hvf hx _ _
  | addToIndex x => cases h; exact reg_setReg_ne (of_decide_eq_false hr) _
  | drawSprite x y n =>
    cases h
    exact guardRange_induction (P := fun t => t.reg r = s.reg r) (fun _ => reg_setReg_ne (of_decide_eq_false hr) _) (fun _ => rfl)
  | waitKey x =>
    obtain ⟨k, rfl⟩ | rfl := execWaitKey_cases h
    · exact reg_setReg_ne (of_decide_eq_false hr) _
    · rfl
  | loadRegs x =>
    cases h
    refine guardRange_induction (P := fun t => t.reg r = s.reg r) (fun _ => ?_) (fun _ => rfl)
    rw [State.reg_setRegs, loadedReg, if_neg (of_decide_eq_false hr)]
  | _ => exact exec_sameExcept h .regs (by simp [mayChange]) r

-- ==== the invariant (R15, R16, R41) ====

/-- Every stack slot is at most 4096: the part of `Inv` about the stack (R16). -/
def SlotsBounded (s : State) : Prop := ∀ k : Fin 16, (s.stack.get k).toNat ≤ 4096

/-- A body keeps memory canonical: a store stays inside the 4096 bytes or is refused (R42). -/
theorem exec_mem_wf {i : Instr} {s t : State} (h : exec i s = .next t) (hm : s.mem.wf = true) : t.mem.wf = true := by
  cases i with
  | storeBcd x =>
    cases h
    refine guardRange_induction (P := fun t => t.mem.wf = true) (fun hlen => Memory.wf_writeRange hm ?_) (fun _ => hm)
    rw [length_bcdDigits]
    omega
  | storeRegs x =>
    cases h
    refine guardRange_induction (P := fun t => t.mem.wf = true) (fun hlen => Memory.wf_writeRange hm ?_) (fun _ => hm)
    rw [length_regsUpTo]
    rw [regCount] at hlen
    omega
  | _ =>
    have hmem : t.mem = s.mem := exec_changesOnly h .memory (by simp [mayChange])
    rwa [hmem]

/-- A body writes no slot above 4096 when the address after the instruction, which a call pushes, is at most that (R102). -/
theorem exec_slotsBounded {i : Instr} {s t : State} (h : exec i s = .next t) (hpc : s.pc.toNat ≤ 4096) (hs : SlotsBounded s) :
    SlotsBounded t := by
  cases i with
  | call nnn =>
    cases h
    obtain ⟨hsp, hc⟩ | hc := callTo_cases s (target nnn)
    · rw [hc]
      intro k
      rw [get_set_slot]
      split
      · exact hpc
      · exact hs k
    · rw [hc]
      exact hs
  | _ =>
    intro k
    rw [exec_sameExcept h .stack (by simp [mayChange]) k]
    exact hs k

/-- Adding 2 to an address that a fetch can leave does not wrap (R64, R103). -/
theorem toNat_add_two {a : Word} (h : a.toNat ≤ 4096) : (a + 2).toNat = a.toNat + 2 :=
  BitVec.toNat_add_of_lt (x := a) (y := 2) (by change a.toNat + 2 < 65536; omega)

theorem pc_skipIf_le {s : State} (c : Bool) (hpc : s.pc.toNat ≤ 4096) : (s.skipIf c).pc.toNat ≤ 4098 := by
  rw [skipIf_eq, State.setPc_pc]
  split
  · rw [toNat_add_two hpc]
    omega
  · omega

/-- From an address after a fetch, which is 2 to 4096, a body takes `PC` no higher than the greatest sum of jump-offset,
4095 + 255 (R15). wait-key takes 2 off it and needs the lower bound. -/
theorem exec_pc_le {i : Instr} {s t : State} (h : exec i s = .next t) (hlo : 2 ≤ s.pc.toNat) (hpc : s.pc.toNat ≤ 4096)
    (hs : SlotsBounded s) : t.pc.toNat ≤ 4350 := by
  cases i with
  | ret =>
    cases h
    obtain ⟨n, k, _, _, hr⟩ | hr := returnToCaller_cases s
    · rw [hr]
      exact (hs k).trans (by decide)
    · rw [hr, State.raise_pc]
      omega
  | call nnn =>
    cases h
    obtain ⟨_, hc⟩ | hc := callTo_cases s (target nnn)
    · rw [hc]
      change (target nnn).toNat ≤ 4350
      rw [toNat_target]
      omega
    · rw [hc, State.raise_pc]
      omega
  | jump nnn =>
    cases h
    rw [State.setPc_pc, toNat_target]
    omega
  | jumpOffset nnn =>
    cases h
    rw [State.setPc_pc, toNat_offsetTarget]
    omega
  | skipEqImm x a | skipNeImm x a | skipEqReg x a | skipNeReg x a => cases h; exact (pc_skipIf_le _ hpc).trans (by decide)
  | skipIfKey x =>
    obtain ⟨c, rfl⟩ | ⟨c, rfl⟩ := execSkipIfKey_cases h
    · exact (pc_skipIf_le c hpc).trans (by decide)
    · rw [State.raise_pc]; omega
  | skipIfNotKey x =>
    obtain ⟨c, rfl⟩ | ⟨c, rfl⟩ := execSkipIfNotKey_cases h
    · exact (pc_skipIf_le c hpc).trans (by decide)
    · rw [State.raise_pc]; omega
  | waitKey x =>
    obtain ⟨k, rfl⟩ | rfl := execWaitKey_cases h
    · rw [State.setReg_pc]; omega
    · rw [State.setPc_pc, BitVec.toNat_sub_of_le (x := s.pc) (y := 2) (BitVec.le_def.2 hlo)]
      omega
  | _ =>
    have hsame : t.pc = s.pc := exec_changesOnly h .pc (by simp [mayChange])
    rw [hsame]
    omega

/-- A fetch moves `PC` past the word without wrapping (R64). -/
theorem toNat_pc_fetched {s : State} (h : s.pc.toNat ≤ 4094) : s.fetched.pc.toNat = s.pc.toNat + 2 := by
  rw [State.fetched_pc, toNat_add_two (by omega)]

/-- A body run after a fetch keeps the invariant. -/
theorem inv_exec_fetched {i : Instr} {s t : State} (hi : Inv s) (hf : s.pc.toNat ≤ 4094) (h : exec i s.fetched = .next t) : Inv t := by
  obtain ⟨hm, -, hs⟩ := hi
  have hpc := toNat_pc_fetched hf
  exact ⟨exec_mem_wf h hm, exec_pc_le h (by omega) (by omega) hs, exec_slotsBounded h (by omega) hs⟩

theorem inv_raise {s : State} {c : Report} : Inv (s.raise c) ↔ Inv s := Iff.rfl

theorem inv_tick {s : State} : Inv s.tick ↔ Inv s := Iff.rfl

/-- A step keeps the invariant: a no-op and an unknown word move `PC` to at most 4096, and the timers are no part of it. -/
theorem inv_step {s t : State} (hi : Inv s) (h : step s = .next t) : Inv t := by
  obtain ⟨_, c, _, rfl⟩ | ⟨hf, _, rfl⟩ | ⟨hf, i, u, _, hu, rfl⟩ := step_cases h
  · exact inv_raise.2 hi
  · obtain ⟨hm, -, hs⟩ := hi
    refine ⟨hm, ?_, hs⟩
    rw [State.tick_pc, State.raise_pc, toNat_pc_fetched hf]
    omega
  · exact inv_tick.2 (inv_exec_fetched hi hf hu)

-- ==== reset (R27) ====

theorem resetByte_font {a : Nat} (h : a < 80) : resetByte a = Config.font.getD a 0 := if_pos h

theorem resetByte_zero {a : Nat} (h : 80 ≤ a) : resetByte a = 0 := if_neg (by omega)

@[simp] theorem cell_reset (c : Nat) : State.reset.disp.cell c = false := pixel_clear _ _

-- ==== outputs (R23, R200) ====

/-- What a fetching step does is a function of the state that its fetch leaves. -/
theorem step_congr_fetched {s s' : State} (h : s.pc.toNat ≤ 4094) (hf : s'.fetched = s.fetched) : step s' = step s := by
  have hpc : s'.pc = s.pc := add_right_cancel (congrArg State.pc hf)
  have hw : s'.wordAtPc = s.wordAtPc := congrArg State.ir hf
  simp only [step, noFetch_none.2 h, noFetch_none.2 (hpc ▸ h), hw, hf]

/-- A fetch overwrites `IR` and the report (R63, R200). -/
theorem fetched_of_outputs (s : State) (c : Report) (w : Word) : State.fetched { s with report := c, ir := w } = s.fetched := rfl

-- ==== the statements ====

/-- Settles O9: the three parts of the invariant, each kept by every body, by the empty body and by the no-op. -/
theorem stepKeepsInvariant : Obligations.StepKeepsInvariant := by
  unfold Obligations.StepKeepsInvariant
  intro s t hi h
  exact inv_step hi h

/-- Settles O20, by the cases of `exec_reg_of_not_mayWrite`: the bodies that write a register, and the frame of the others. -/
theorem registersWrittenOnlyAsNamed : Obligations.RegistersWrittenOnlyAsNamed := by
  unfold Obligations.RegistersWrittenOnlyAsNamed
  intro i s t r h hr
  exact exec_reg_of_not_mayWrite h hr

/-- Settles O21, by the frame of every instruction. -/
theorem storesWrittenOnlyByTheirInstructions : Obligations.StoresWrittenOnlyByTheirInstructions := by
  unfold Obligations.StoresWrittenOnlyByTheirInstructions
  intro i s t h
  have frame := exec_sameExcept h
  refine ⟨fun hb hr => frame .memory ?_, fun hc hd => frame .display ?_, fun hc => frame .stack ?_, frame .keys (keys_notMem_mayChange i)⟩
  · simpa [memory_mem_mayChange] using ⟨hb, hr⟩
  · simpa [display_mem_mayChange] using ⟨hc, hd⟩
  · simpa [stack_mem_mayChange] using hc

/-- Settles O22, by the frame of every instruction. -/
theorem specialRegistersWrittenOnlyAsNamed : Obligations.SpecialRegistersWrittenOnlyAsNamed := by
  unfold Obligations.SpecialRegistersWrittenOnlyAsNamed
  intro i s t h
  have frame := exec_sameExcept h
  refine ⟨fun hi ha hf => frame .index ?_, fun hc hr => frame .sp ?_, fun hp => frame .pc ?_, fun hd => frame .delay ?_,
    fun hs => frame .sound ?_, frame .ir (ir_notMem_mayChange i)⟩
  · simpa [index_mem_mayChange] using ⟨hi, ha, hf⟩
  · simpa [sp_mem_mayChange] using ⟨hc, hr⟩
  · simpa [pc_mem_mayChange] using hp
  · simpa [delay_mem_mayChange] using hd
  · simpa [sound_mem_mayChange] using hs

/-- Settles O7. Memory at reset lists no cell, so it reads as `resetByte`. -/
theorem resetValues : Obligations.ResetValues := by
  unfold Obligations.ResetValues
  exact ⟨by decide, rfl, rfl, rfl, by decide, rfl, rfl, fun a ha => resetByte_font ha, fun a ha _ => resetByte_zero ha,
    fun c _ => cell_reset c, by decide, rfl⟩

/-- Settles O8: memory at reset lists no cell, `PC` is 512 and every slot is 0. -/
theorem resetMeetsInvariant : Obligations.ResetMeetsInvariant := by
  unfold Obligations.ResetMeetsInvariant
  exact ⟨Memory.wf_nil, by decide, by decide⟩

/-- Settles O17: the fetch overwrites both before the body runs. -/
theorem irAndReportAreNeverRead : Obligations.IrAndReportAreNeverRead := by
  unfold Obligations.IrAndReportAreNeverRead
  intro s t c w hf h
  rw [step_congr_fetched hf (fetched_of_outputs s c w)]
  exact h

end Sys2Proof.Machine
end

section
/-!
PROOFS. The statements about memory (20_memory.md): a byte stored is the byte that the next fetch reads (O43), and a data range past
the end is refused as a whole (O42).
-/

namespace Sys2Proof.Machine

-- ==== a data range, inside memory or past its end (R42, R207) ====

theorem guardRange_of_le {s : State} {len : Nat} (h : s.i.toNat + len ≤ 4096) (body : State) : s.guardRange len body = body := by
  rw [guardRange_eq, if_pos (.inr h)]

theorem guardRange_of_gt {s : State} {len : Nat} (hlen : 0 < len) (h : 4096 < s.i.toNat + len) (body : State) :
    s.guardRange len body = s.raise (.addressOutOfRange (s.i.toNat + len - 1)) := by
  rw [guardRange_eq, if_neg (by omega)]

-- ==== the bodies that access memory ====

theorem exec_storeBcd (x : Reg) (s : State) :
    exec (.storeBcd x) s = .next (s.guardRange 3 (s.setMem (s.mem.writeRange s.i.toNat (bcdDigits (s.reg x))))) := rfl

theorem exec_storeRegs (x : Reg) (s : State) :
    exec (.storeRegs x) s = .next (s.guardRange (x.val + 1) (s.setMem (s.mem.writeRange s.i.toNat (regsUpTo s x)))) := rfl

theorem exec_loadRegs (x : Reg) (s : State) :
    exec (.loadRegs x) s = .next (s.guardRange (x.val + 1) (s.setRegs (loadedReg s x))) := rfl

theorem exec_drawSprite (x y : Reg) (n : Nat) (s : State) :
    exec (.drawSprite x y n) s =
      .next (s.guardRange n ((s.setDisp (drawn x y n s).1).setReg vf (collision (drawn x y n s).2))) := rfl

/-- store-bcd whose range ends inside memory writes the three digits (R143). -/
theorem exec_storeBcd_of_le {s : State} (x : Reg) (h : s.i.toNat + 3 ≤ 4096) :
    exec (.storeBcd x) s = .next (s.setMem (s.mem.writeRange s.i.toNat (bcdDigits (s.reg x)))) := by
  rw [exec_storeBcd, guardRange_of_le h]

/-- store-regs whose range ends inside memory writes `V[0]` to `V[x]` (R144). -/
theorem exec_storeRegs_of_le {s : State} {x : Reg} (h : s.i.toNat + x.val + 1 ≤ 4096) :
    exec (.storeRegs x) s = .next (s.setMem (s.mem.writeRange s.i.toNat (regsUpTo s x))) := by
  rw [exec_storeRegs, guardRange_of_le (len := x.val + 1) (by omega)]

/-- The digits that store-bcd writes, as numbers: each is below 10 and fits a byte (R143). -/
theorem toNat_getD_bcdDigits (a : Byte) {k : Nat} (hk : k < 3) :
    ((bcdDigits a).getD k 0).toNat = [a.toNat / 100, a.toNat / 10 % 10, a.toNat % 10].getD k 0 := by
  have ha := a.isLt
  interval_cases k <;> simp [bcdDigits] <;> omega

/-- A load of at most 3584 bytes, all delivered, writes them from 512 on (R243). -/
theorem loadProgram_of_le {bytes : List Byte} (h : bytes.length ≤ 3584) (s : State) :
    loadProgram bytes.length bytes s = (.written bytes.length, s.setMem (s.mem.writeRange 512 bytes)) := by
  have hok : loadError bytes.length bytes.length = none := by rw [loadError, if_neg (by omega), if_pos rfl]
  rw [loadProgram, hok]

-- ==== every fetching step answers, and its word is in `IR` (R60, R63) ====

/-- Every body answers with a next state (R200). -/
theorem exec_next (i : Instr) (s : State) : ∃ t, exec i s = .next t := by
  cases i with
  | skipIfKey x | skipIfNotKey x | waitKey x =>
    simp only [exec, execSkipIfKey, execSkipIfNotKey, execWaitKey]
    split <;> exact ⟨_, rfl⟩
  | _ => exact ⟨_, rfl⟩

/-- A step that fetches a known word runs its body, then the timers. -/
theorem step_of_exec {i : Instr} {s t : State} (hpc : s.pc.toNat ≤ 4094) (hd : decodeWord s.wordAtPc = some i)
    (hx : exec i s.fetched = .next t) : step s = .next t.tick := by
  simp only [step, noFetch_none.2 hpc, hd, hx, finish]

/-- A step that fetches an unknown word reports it, then runs the timers (R72). -/
theorem step_of_unknown {s : State} (hpc : s.pc.toNat ≤ 4094) (hd : decodeWord s.wordAtPc = none) :
    step s = .next (s.fetched.raise (.unknownInstruction s.wordAtPc)).tick := by
  simp only [step, noFetch_none.2 hpc, hd]

/-- A fetching step leaves the word at `PC` in `IR`, known or not: no body writes `IR` (R23, R63). -/
theorem step_ir_of_fetch {s : State} (hpc : s.pc.toNat ≤ 4094) : ∃ t, step s = .next t ∧ t.ir = s.wordAtPc := by
  cases hd : decodeWord s.wordAtPc with
  | none => exact ⟨_, step_of_unknown hpc hd, rfl⟩
  | some i =>
    obtain ⟨t, ht⟩ := exec_next i s.fetched
    exact ⟨t.tick, step_of_exec hpc hd ht, exec_sameExcept ht .ir (ir_notMem_mayChange i)⟩

-- ==== a fetch after a write (R55) ====

/-- `IR` holds the bytes `us` written from `a` on, where they lie at the fetch address `pc`: there in its high byte, one address
further in its low byte. -/
def IrHolds (a pc : Nat) (us : List Byte) (ir : Word) : Prop :=
  ∀ j < us.length, (a + j = pc → highByte ir = us.getD j 0) ∧ (a + j = pc + 1 → lowByte ir = us.getD j 0)

/-- A byte of a range written is read back at its address (R47, R49). -/
theorem read_writeRange_add {m : Memory} (hm : m.wf = true) {a j : Nat} {us : List Byte} (ha : a + us.length ≤ 4096)
    (hj : j < us.length) : (m.writeRange a us).read (a + j) = us.getD j 0 := by
  rw [Memory.read_writeRange hm ha, if_pos (by omega), Nat.add_sub_cancel_left]

theorem highByte_wordAtPc (s : State) : highByte s.wordAtPc = s.mem.read s.pc.toNat := highByte_wordOfBytes _ _

theorem lowByte_wordAtPc (s : State) : lowByte s.wordAtPc = s.mem.read (s.pc.toNat + 1) := lowByte_wordOfBytes _ _

/-- A step from a state whose memory ends in a range write fetches the bytes written. -/
theorem step_fetches_written {s : State} {m : Memory} {a : Nat} {us : List Byte} (hm : m.wf = true) (ha : a + us.length ≤ 4096)
    (hmem : s.mem = m.writeRange a us) (hpc : s.pc.toNat ≤ 4094) : ∃ u, step s = .next u ∧ IrHolds a s.pc.toNat us u.ir := by
  obtain ⟨u, hu, hir⟩ := step_ir_of_fetch hpc
  refine ⟨u, hu, fun j hj => ⟨fun h => ?_, fun h => ?_⟩⟩
  · rw [hir, highByte_wordAtPc, hmem, ← h, read_writeRange_add hm ha hj]
  · rw [hir, lowByte_wordAtPc, hmem, ← h, read_writeRange_add hm ha hj]

/-- After a step whose body writes a range of memory and nothing else, the next step fetches the bytes written. -/
theorem step_step_fetches_stored {s : State} {i : Instr} {us : List Byte} (hm : s.mem.wf = true) (hpc : s.pc.toNat ≤ 4092)
    (hd : decodeWord s.wordAtPc = some i) (ha : s.i.toNat + us.length ≤ 4096)
    (hx : exec i s.fetched = .next (s.fetched.setMem (s.mem.writeRange s.i.toNat us))) :
    ∃ t u, step s = .next t ∧ step t = .next u ∧ IrHolds s.i.toNat (s.pc.toNat + 2) us u.ir := by
  have hpc2 := toNat_pc_fetched (s := s) (by omega)
  obtain ⟨u, hu, hir⟩ :=
    step_fetches_written (s := (s.fetched.setMem (s.mem.writeRange s.i.toNat us)).tick) hm ha rfl (hpc2.trans_le (by omega))
  exact ⟨_, u, step_of_exec (by omega) hd hx, hu, hpc2 ▸ hir⟩

-- ==== the statements ====

/-- Settles O43. Each of the three writers leaves a memory that ends in a range write, and the next fetch reads it. -/
theorem storedWordIsFetchedNext : Obligations.StoredWordIsFetchedNext := by
  unfold Obligations.StoredWordIsFetchedNext
  intro s hm
  refine ⟨fun x hpc hd hi => ?_, fun x hpc hd hi => ?_, fun bytes hpc hlen => ?_⟩
  · obtain ⟨t, u, ht, hu, hir⟩ :=
      step_step_fetches_stored (us := regsUpTo s x) hm hpc hd (by rw [length_regsUpTo]; omega) (exec_storeRegs_of_le hi)
    refine ⟨t, u, ht, hu, fun k hk => ?_⟩
    rw [← getD_regsUpTo s x hk]
    exact hir k.val (by rw [length_regsUpTo]; exact Nat.lt_succ_of_le hk)
  · obtain ⟨t, u, ht, hu, hir⟩ := step_step_fetches_stored (us := bcdDigits (s.reg x)) hm hpc hd hi (exec_storeBcd_of_le x hi)
    refine ⟨t, u, ht, hu, fun k hk => ?_⟩
    obtain ⟨hhi, hlo⟩ := hir k hk
    rw [← toNat_getD_bcdDigits _ hk]
    exact ⟨fun h => congrArg BitVec.toNat (hhi h), fun h => congrArg BitVec.toNat (hlo h)⟩
  · rw [loadProgram_of_le hlen]
    exact step_fetches_written hm (by omega) rfl hpc

/-- Settles O42: all four bodies are guarded, and a guard that fails only reports. -/
theorem rangePastEndIsRefused : Obligations.RangePastEndIsRefused := by
  unfold Obligations.RangePastEndIsRefused
  intro x y n s
  refine ⟨fun h => ?_, fun h => ⟨?_, ?_⟩, fun hn h => ?_⟩
  · rw [exec_storeBcd, guardRange_of_gt (by omega) h]
    rfl
  · rw [exec_storeRegs, guardRange_of_gt (by omega) h]
    rfl
  · rw [exec_loadRegs, guardRange_of_gt (by omega) h]
    rfl
  · rw [exec_drawSprite, guardRange_of_gt hn h]
    rfl

end Sys2Proof.Machine
end

section
/-!
PROOFS. The decoder and the encoder (30_encoding.md R65 to R73): decoding gives back what was encoded (O1), and encoding what was
decoded (O2); which bits of a word matter (O3, O4), which words have no behaviour (O5), and a few words of each family (O6).
-/

namespace Sys2Proof

-- ==== the fields of an encoded word (R65) ====

@[simp] theorem groupOf_encodeA (g : BitVec 4) (nnn : Addr) : groupOf (encodeA g nnn) = g := by
  apply BitVec.eq_of_toNat_eq
  have := nnn.isLt
  rw [toNat_groupOf, toNat_encodeA]
  omega

@[simp] theorem nnnOf_encodeA (g : BitVec 4) (nnn : Addr) : nnnOf (encodeA g nnn) = nnn := by
  apply BitVec.eq_of_toNat_eq
  have := nnn.isLt
  rw [toNat_nnnOf, toNat_encodeA]
  omega

@[simp] theorem groupOf_encodeXK (g : BitVec 4) (x : Reg) (kk : Byte) : groupOf (encodeXK g x kk) = g := groupOf_encodeA g _

@[simp] theorem xOf_encodeXK (g : BitVec 4) (x : Reg) (kk : Byte) : xOf (encodeXK g x kk) = x := by
  apply Fin.ext
  have := kk.isLt
  have := x.isLt
  rw [val_xOf, toNat_encodeXK]
  omega

@[simp] theorem kkOf_encodeXK (g : BitVec 4) (x : Reg) (kk : Byte) : kkOf (encodeXK g x kk) = kk := by
  apply BitVec.eq_of_toNat_eq
  have := kk.isLt
  rw [toNat_kkOf, toNat_encodeXK]
  omega

@[simp] theorem groupOf_encodeXS (g : BitVec 4) (x : Reg) (lo8 : Byte) : groupOf (encodeXS g x lo8) = g := groupOf_encodeA g _

@[simp] theorem xOf_encodeXS (g : BitVec 4) (x : Reg) (lo8 : Byte) : xOf (encodeXS g x lo8) = x := xOf_encodeXK g x lo8

@[simp] theorem lo8Of_encodeXS (g : BitVec 4) (x : Reg) (lo8 : Byte) : lo8Of (encodeXS g x lo8) = lo8 := kkOf_encodeXK g x lo8

@[simp] theorem groupOf_encodeXYS (g : BitVec 4) (x y : Reg) (lo : BitVec 4) : groupOf (encodeXYS g x y lo) = g := groupOf_encodeA g _

@[simp] theorem xOf_encodeXYS (g : BitVec 4) (x y : Reg) (lo : BitVec 4) : xOf (encodeXYS g x y lo) = x := xOf_encodeXK g x _

@[simp] theorem yOf_encodeXYS (g : BitVec 4) (x y : Reg) (lo : BitVec 4) : yOf (encodeXYS g x y lo) = y := by
  apply Fin.ext
  have := lo.isLt
  have := y.isLt
  rw [val_yOf, toNat_encodeXYS]
  omega

@[simp] theorem lo4Of_encodeXYS (g : BitVec 4) (x y : Reg) (lo : BitVec 4) : lo4Of (encodeXYS g x y lo) = lo := by
  apply BitVec.eq_of_toNat_eq
  have := lo.isLt
  rw [toNat_lo4Of, toNat_encodeXYS]
  omega

@[simp] theorem nOf_encodeXYS (g : BitVec 4) (x y : Reg) (lo : BitVec 4) : nOf (encodeXYS g x y lo) = lo.toNat :=
  congrArg BitVec.toNat (lo4Of_encodeXYS g x y lo)

-- ==== a word is made of its fields (R65) ====

theorem encodeA_of_fields {w : Word} {g : BitVec 4} (hg : groupOf w = g) : encodeA g (nnnOf w) = w := by
  subst hg
  apply BitVec.eq_of_toNat_eq
  rw [toNat_encodeA, toNat_groupOf, toNat_nnnOf]
  omega

theorem encodeXK_of_fields {w : Word} {g : BitVec 4} (hg : groupOf w = g) : encodeXK g (xOf w) (kkOf w) = w := by
  subst hg
  apply BitVec.eq_of_toNat_eq
  rw [toNat_encodeXK, toNat_groupOf, val_xOf, toNat_kkOf]
  omega

theorem encodeXS_of_fields {w : Word} {g : BitVec 4} {lo8 : Byte} (hg : groupOf w = g) (hl : lo8Of w = lo8) :
    encodeXS g (xOf w) lo8 = w := by
  subst hl
  exact encodeXK_of_fields hg

theorem lo4Of_eq_ofNat (w : Word) : lo4Of w = BitVec.ofNat 4 (nOf w) := by rw [nOf, BitVec.ofNat_toNat, BitVec.setWidth_eq, lo4Of]

theorem encodeXYS_of_fields {w : Word} {g lo : BitVec 4} (hg : groupOf w = g) (hl : lo4Of w = lo) :
    encodeXYS g (xOf w) (yOf w) lo = w := by
  subst hg hl
  apply BitVec.eq_of_toNat_eq
  rw [toNat_encodeXYS, toNat_groupOf, val_xOf, val_yOf, toNat_lo4Of]
  omega

-- ==== the bits that the formats `Z`, `XY` and the shifts ignore (R71) ====

theorem encodeXS_zero_of_fields {w : Word} {g : BitVec 4} {lo8 : Byte} (hg : groupOf w = g) (hl : lo8Of w = lo8) :
    encodeXS g 0 lo8 = w &&& 0xF0FF := by
  rw [← Laws.FixedBits.encodeXS_key g (xOf w), encodeXS_of_fields hg hl]

theorem encodeXYS_and_0xFFF0 (g : BitVec 4) (x y : Reg) (lo : BitVec 4) : encodeXYS g x y lo &&& 0xFFF0 = encodeXYS g x y 0 := by
  apply BitVec.eq_of_getLsbD_eq
  intro k hk
  simp only [encodeXYS, BitVec.getLsbD_and, BitVec.getLsbD_append]
  interval_cases k <;> simp

theorem encodeXYS_and_0xFF0F (g : BitVec 4) (x y : Reg) (lo : BitVec 4) : encodeXYS g x y lo &&& 0xFF0F = encodeXYS g x 0 lo := by
  apply BitVec.eq_of_getLsbD_eq
  intro k hk
  simp only [encodeXYS, BitVec.getLsbD_and, BitVec.getLsbD_append]
  interval_cases k <;> simp [Laws.FixedBits.regBits_zero]

theorem encodeXY_of_fields {w : Word} {g : BitVec 4} (hg : groupOf w = g) : encodeXYS g (xOf w) (yOf w) 0 = w &&& 0xFFF0 := by
  rw [← encodeXYS_and_0xFFF0 g _ _ (lo4Of w), encodeXYS_of_fields hg rfl]

theorem encodeShift_of_fields {w : Word} {g lo : BitVec 4} (hg : groupOf w = g) (hl : lo4Of w = lo) :
    encodeXYS g (xOf w) 0 lo = w &&& 0xFF0F := by
  rw [← encodeXYS_and_0xFF0F g _ (yOf w), encodeXYS_of_fields hg hl]

theorem and_0xFFFF (w : Word) : w &&& 0xFFFF = w := BitVec.and_allOnes

-- ==== what the decoder answers is encoded by the word's used bits (R71) ====

/-- `w` is the encoding of the well-formed `i` in every bit that the format uses. -/
def Encodes (w : Word) (i : Instr) : Prop := i.wellFormed = true ∧ encode i = w &&& usedBits i

theorem encodes_of_decodeGroup0 {w : Word} {i : Instr} (hg : groupOf w = 0x0) (h : decodeGroup0 w = some i) : Encodes w i := by
  unfold decodeGroup0 at h
  split at h
  case h_3 => cases h
  all_goals cases h; exact ⟨rfl, encodeXS_zero_of_fields hg ‹_›⟩

theorem encodes_of_decodeGroup8 {w : Word} {i : Instr} (hg : groupOf w = 0x8) (h : decodeGroup8 w = some i) : Encodes w i := by
  unfold decodeGroup8 at h
  split at h
  case h_7 | h_9 => -- the shifts
    cases h; exact ⟨rfl, encodeShift_of_fields hg ‹_›⟩
  case h_10 => cases h
  all_goals cases h; exact ⟨rfl, (encodeXYS_of_fields hg ‹_›).trans (and_0xFFFF w).symm⟩

theorem encodes_of_decodeGroupE {w : Word} {i : Instr} (hg : groupOf w = 0xE) (h : decodeGroupE w = some i) : Encodes w i := by
  unfold decodeGroupE at h
  split at h
  case h_3 => cases h
  all_goals cases h; exact ⟨rfl, (encodeXS_of_fields hg ‹_›).trans (and_0xFFFF w).symm⟩

theorem encodes_of_decodeGroupF {w : Word} {i : Instr} (hg : groupOf w = 0xF) (h : decodeGroupF w = some i) : Encodes w i := by
  unfold decodeGroupF at h
  split at h
  case h_10 => cases h
  all_goals cases h; exact ⟨rfl, (encodeXS_of_fields hg ‹_›).trans (and_0xFFFF w).symm⟩

/-- The groups that the primary decode names leave 0xF for its last arm (R66). -/
theorem group_eq_F {g : BitVec 4} (h : g ∉ [0x0, 0x1, 0x2, 0x3, 0x4, 0x5, 0x6, 0x7, 0x8, 0x9, 0xA, 0xB, 0xC, 0xD, 0xE]) :
    g = 0xF := by
  decide +revert

/-- Every arm of the decoder answers an instruction that the word encodes. -/
theorem encodes_of_decodeWord {w : Word} {i : Instr} (h : decodeWord w = some i) : Encodes w i := by
  unfold decodeWord at h
  split at h
  case h_1 hg => exact encodes_of_decodeGroup0 hg h
  case h_9 hg => exact encodes_of_decodeGroup8 hg h
  case h_15 hg => exact encodes_of_decodeGroupE hg h
  case h_16 =>
    have hg : groupOf w = 0xF := group_eq_F (by simp_all)
    exact encodes_of_decodeGroupF hg h
  case h_2 hg | h_3 hg | h_11 hg | h_12 hg => -- format `A`
    cases h; exact ⟨rfl, (encodeA_of_fields hg).trans (and_0xFFFF w).symm⟩
  case h_4 hg | h_5 hg | h_7 hg | h_8 hg | h_13 hg => -- format `XK`
    cases h; exact ⟨rfl, (encodeXK_of_fields hg).trans (and_0xFFFF w).symm⟩
  case h_6 hg | h_10 hg => -- format `XY`
    cases h; exact ⟨rfl, encodeXY_of_fields hg⟩
  case h_14 hg => -- draw-sprite, format `XYN`
    cases h
    have hn : nOf w ≤ 15 := by rw [nOf_eq]; omega
    exact ⟨decide_eq_true hn, (encodeXYS_of_fields hg (lo4Of_eq_ofNat w)).trans (and_0xFFFF w).symm⟩

-- ==== rows of the opcode map (R73) ====

/-- The word has the fixed bits of the instruction's row. -/
def MatchesRow (w : Word) (j : Instr) : Prop := w &&& (rowOf j).1 = (rowOf j).2

/-- The encoding has the fixed bits of its row: the family FixedBits, by format. -/
theorem matchesRow_encode (i : Instr) : MatchesRow (encode i) i := by
  cases i with
  | jump a | call a | setIndex a | jumpOffset a => exact Laws.FixedBits.encodeA_group _ a
  | skipEqImm x a | skipNeImm x a | loadImm x a | addImm x a | randomAnd x a => exact Laws.FixedBits.encodeXK_group _ x a
  | skipEqReg x y | skipNeReg x y => exact Laws.FixedBits.encodeXYS_group _ x y 0
  | drawSprite x y n => exact Laws.FixedBits.drawSprite x y n
  | regToReg x y | orReg x y | andReg x y | xorReg x y | addReg x y | subRegFwd x y | subRegRev x y =>
    exact Laws.FixedBits.encodeXYS_key _ x y _
  | shiftRight x | shiftLeft x => exact Laws.FixedBits.encodeXYS_key _ x 0 _
  | clearScreen | ret => exact Laws.FixedBits.encodeXS_key _ 0 _
  | skipIfKey x | skipIfNotKey x | readDelay x | waitKey x | setDelay x | setSound x | addToIndex x | fontChar x
  | storeBcd x | storeRegs x | loadRegs x => exact Laws.FixedBits.encodeXS_key _ x _

theorem usedBits_and_mask (i : Instr) : usedBits i &&& (rowOf i).1 = (rowOf i).1 := by
  cases i <;> (simp only [usedBits, rowOf]; decide)

/-- The fixed bits of a row are among the used ones. -/
theorem matchesRow_and_usedBits {w : Word} {i : Instr} : MatchesRow (w &&& usedBits i) i ↔ MatchesRow w i := by
  rw [MatchesRow, BitVec.and_assoc, usedBits_and_mask, MatchesRow]

theorem matchesRow_of_encodes {w : Word} {i : Instr} (h : Encodes w i) : MatchesRow w i := by
  obtain ⟨-, he⟩ := h
  rw [← matchesRow_and_usedBits, ← he]
  exact matchesRow_encode i

/-- The instruction of `j`'s row with the operands that the word's fields hold. -/
def withFields (w : Word) : Instr → Instr
  | .clearScreen => .clearScreen
  | .ret => .ret
  | .jump _ => .jump (nnnOf w)
  | .call _ => .call (nnnOf w)
  | .skipEqImm _ _ => .skipEqImm (xOf w) (kkOf w)
  | .skipNeImm _ _ => .skipNeImm (xOf w) (kkOf w)
  | .skipEqReg _ _ => .skipEqReg (xOf w) (yOf w)
  | .loadImm _ _ => .loadImm (xOf w) (kkOf w)
  | .addImm _ _ => .addImm (xOf w) (kkOf w)
  | .regToReg _ _ => .regToReg (xOf w) (yOf w)
  | .orReg _ _ => .orReg (xOf w) (yOf w)
  | .andReg _ _ => .andReg (xOf w) (yOf w)
  | .xorReg _ _ => .xorReg (xOf w) (yOf w)
  | .addReg _ _ => .addReg (xOf w) (yOf w)
  | .subRegFwd _ _ => .subRegFwd (xOf w) (yOf w)
  | .shiftRight _ => .shiftRight (xOf w)
  | .subRegRev _ _ => .subRegRev (xOf w) (yOf w)
  | .shiftLeft _ => .shiftLeft (xOf w)
  | .skipNeReg _ _ => .skipNeReg (xOf w) (yOf w)
  | .setIndex _ => .setIndex (nnnOf w)
  | .jumpOffset _ => .jumpOffset (nnnOf w)
  | .randomAnd _ _ => .randomAnd (xOf w) (kkOf w)
  | .drawSprite _ _ _ => .drawSprite (xOf w) (yOf w) (nOf w)
  | .skipIfKey _ => .skipIfKey (xOf w)
  | .skipIfNotKey _ => .skipIfNotKey (xOf w)
  | .readDelay _ => .readDelay (xOf w)
  | .waitKey _ => .waitKey (xOf w)
  | .setDelay _ => .setDelay (xOf w)
  | .setSound _ => .setSound (xOf w)
  | .addToIndex _ => .addToIndex (xOf w)
  | .fontChar _ => .fontChar (xOf w)
  | .storeBcd _ => .storeBcd (xOf w)
  | .storeRegs _ => .storeRegs (xOf w)
  | .loadRegs _ => .loadRegs (xOf w)

theorem rowOf_withFields (w : Word) (j : Instr) : rowOf (withFields w j) = rowOf j := by cases j <;> rfl

theorem usedBits_withFields (w : Word) (j : Instr) : usedBits (withFields w j) = usedBits j := by cases j <;> rfl

/-- The fields of an encoding are the operands, for every operand that fits its field (R65). -/
theorem withFields_encode {i : Instr} (h : i.wellFormed = true) : withFields (encode i) i = i := by
  cases i with
  | drawSprite x y n =>
    have hn : n ≤ 15 := of_decide_eq_true h
    simpa [withFields, encode] using Nat.lt_succ_of_le hn
  | _ => simp [withFields, encode]

/-- A field that lies under the mask is the masked word's. -/
theorem extractLsb'_of_and {w m r : Word} {lo len : Nat} (h : w &&& m = r) (hm : m.extractLsb' lo len = BitVec.allOnes len) :
    w.extractLsb' lo len = r.extractLsb' lo len := by
  rw [← h, BitVec.extractLsb'_and, hm, BitVec.and_allOnes]

theorem groupOf_of_and {w m r : Word} (h : w &&& m = r) (hm : groupOf m = BitVec.allOnes 4) : groupOf w = groupOf r :=
  extractLsb'_of_and h hm

theorem lo4Of_of_and {w m r : Word} (h : w &&& m = r) (hm : lo4Of m = BitVec.allOnes 4) : lo4Of w = lo4Of r :=
  extractLsb'_of_and h hm

theorem lo8Of_of_and {w m r : Word} (h : w &&& m = r) (hm : lo8Of m = BitVec.allOnes 8) : lo8Of w = lo8Of r :=
  extractLsb'_of_and h hm

theorem decodeWord_group0 {w : Word} (hg : groupOf w = 0x0#4) : decodeWord w = decodeGroup0 w := by
  simp only [decodeWord, hg]

theorem decodeWord_group8 {w : Word} (hg : groupOf w = 0x8#4) : decodeWord w = decodeGroup8 w := by
  simp only [decodeWord, hg]

theorem decodeWord_groupE {w : Word} (hg : groupOf w = 0xE#4) : decodeWord w = decodeGroupE w := by
  simp only [decodeWord, hg]

theorem decodeWord_groupF {w : Word} (hg : groupOf w = 0xF#4) : decodeWord w = decodeGroupF w := by
  rw [decodeWord, hg]
  rfl

/-- A word with a row's fixed bits decodes to that row, its operands read from the fields. -/
theorem decodeWord_of_matchesRow {w : Word} {j : Instr} (h : MatchesRow w j) : decodeWord w = some (withFields w j) := by
  cases j with
  | clearScreen | ret =>
    simp only [MatchesRow, rowOf] at h
    rw [decodeWord_group0 (groupOf_of_and h rfl), decodeGroup0, lo8Of_of_and h rfl]
    rfl
  | regToReg x y | orReg x y | andReg x y | xorReg x y | addReg x y | subRegFwd x y | subRegRev x y | shiftRight x | shiftLeft x =>
    simp only [MatchesRow, rowOf] at h
    rw [decodeWord_group8 (groupOf_of_and h rfl), decodeGroup8, lo4Of_of_and h rfl]
    rfl
  | skipIfKey x | skipIfNotKey x =>
    simp only [MatchesRow, rowOf] at h
    rw [decodeWord_groupE (groupOf_of_and h rfl), decodeGroupE, lo8Of_of_and h rfl]
    rfl
  | readDelay x | waitKey x | setDelay x | setSound x | addToIndex x | fontChar x | storeBcd x | storeRegs x | loadRegs x =>
    simp only [MatchesRow, rowOf] at h
    rw [decodeWord_groupF (groupOf_of_and h rfl), decodeGroupF, lo8Of_of_and h rfl]
    rfl
  | _ =>
    simp only [MatchesRow, rowOf] at h
    rw [decodeWord, groupOf_of_and h rfl]
    rfl

-- ==== decoding and encoding are inverse (R65, R71) ====

theorem decodeWord_encode {i : Instr} (h : i.wellFormed = true) : decodeWord (encode i) = some i := by
  rw [decodeWord_of_matchesRow (matchesRow_encode i), withFields_encode h]

/-- Different well-formed instructions have different encodings. -/
theorem encode_injective {i j : Instr} (hi : i.wellFormed = true) (hj : j.wellFormed = true) (h : encode i = encode j) : i = j :=
  Option.some.inj (by rw [← decodeWord_encode hi, h, decodeWord_encode hj])

/-- A word decodes to `i` exactly when it is the encoding of `i` in every bit that the format uses. -/
theorem decodeWord_eq_some {w : Word} {i : Instr} : decodeWord w = some i ↔ Encodes w i := by
  refine ⟨encodes_of_decodeWord, fun h => ?_⟩
  have hd := decodeWord_of_matchesRow (matchesRow_of_encodes h)
  obtain ⟨hwf, he⟩ := h
  obtain ⟨hwf', he'⟩ := encodes_of_decodeWord hd
  rw [usedBits_withFields] at he'
  rw [hd, encode_injective hwf' hwf (he'.trans he.symm)]

/-- Two bytes decode to the instruction of their word, and the bytes after them are left over. -/
theorem decode_eq_instr {hi lo : Byte} {rest rest' : List Byte} {i : Instr} :
    decode (hi :: lo :: rest) = .instr i rest' ↔ decodeWord (wordOfBytes hi lo) = some i ∧ rest = rest' := by
  rw [decode]
  cases decodeWord (wordOfBytes hi lo) <;> simp

-- ==== words with no behaviour (R72) ====

theorem decodeGroup0_eq_none {w : Word} : decodeGroup0 w = none ↔ w.toNat % 256 ∉ [0xE0, 0xEE] := by
  rw [← toNat_lo8Of, decodeGroup0]
  split
  case h_3 => simp_all [BitVec.toNat_eq]
  all_goals simp [*]

theorem decodeGroup8_eq_none {w : Word} : decodeGroup8 w = none ↔ w.toNat % 16 ∈ [0x8, 0x9, 0xA, 0xB, 0xC, 0xD, 0xF] := by
  rw [← toNat_lo4Of, decodeGroup8]
  split
  case h_10 =>
    generalize lo4Of w = lo at *
    simp only [true_iff]
    decide +revert
  all_goals simp [*]

theorem decodeGroupE_eq_none {w : Word} : decodeGroupE w = none ↔ w.toNat % 256 ∉ [0x9E, 0xA1] := by
  rw [← toNat_lo8Of, decodeGroupE]
  split
  case h_3 => simp_all [BitVec.toNat_eq]
  all_goals simp [*]

theorem decodeGroupF_eq_none {w : Word} :
    decodeGroupF w = none ↔ w.toNat % 256 ∉ [0x07, 0x0A, 0x15, 0x18, 0x1E, 0x29, 0x33, 0x55, 0x65] := by
  rw [← toNat_lo8Of, decodeGroupF]
  split
  case h_10 => simp_all [BitVec.toNat_eq]
  all_goals simp [*]

/-- Only the groups with a sub-key have words with no behaviour (R66, R72). -/
theorem decodeWord_eq_none {w : Word} : decodeWord w = none ↔
    (groupOf w = 0x0 ∧ decodeGroup0 w = none) ∨ (groupOf w = 0x8 ∧ decodeGroup8 w = none) ∨
    (groupOf w = 0xE ∧ decodeGroupE w = none) ∨ (groupOf w = 0xF ∧ decodeGroupF w = none) := by
  rw [decodeWord]
  split
  case h_16 =>
    have hg : groupOf w = 0xF := group_eq_F (by simp_all)
    simp [hg]
  all_goals simp [*]

theorem groupOf_eq_iff {w : Word} {g : BitVec 4} : groupOf w = g ↔ w.toNat / 4096 = g.toNat := by
  rw [← toNat_groupOf, BitVec.toNat_eq]

-- ==== the statements ====

/-- Settles O1: the encoding has its row's fixed bits, so it decodes to that row, and its fields are the operands. -/
theorem decodeOfEncode : Obligations.DecodeOfEncode := by
  unfold Obligations.DecodeOfEncode
  intro i hwf
  have hd := decodeWord_encode hwf
  refine ⟨hd, fun rest => decode_eq_instr.2 ⟨?_, rfl⟩⟩
  rw [wordOfBytes_bytes, hd]

/-- Settles O2, by the arms of the decoder. -/
theorem encodeOfDecode : Obligations.EncodeOfDecode := by
  unfold Obligations.EncodeOfDecode
  intro w i h
  exact decodeWord_eq_some.1 h

/-- Settles O3: what a word decodes to is a matter of its used bits. -/
theorem ignoredBitsDoNotMatter : Obligations.IgnoredBitsDoNotMatter := by
  unfold Obligations.IgnoredBitsDoNotMatter
  intro w w' i h hu
  obtain ⟨hwf, he⟩ := decodeWord_eq_some.1 h
  exact decodeWord_eq_some.2 ⟨hwf, he.trans hu.symm⟩

/-- Settles O4: a word with a row's fixed bits decodes to that row with its own fields, and an encoding has its row's fixed bits. -/
theorem decodeByOpcodeMapRow : Obligations.DecodeByOpcodeMapRow := by
  unfold Obligations.DecodeByOpcodeMapRow
  intro w j
  constructor
  · intro h
    exact ⟨withFields w j, decodeWord_of_matchesRow h, rowOf_withFields w j⟩
  · rintro ⟨i, hd, hr⟩
    rw [← hr]
    exact matchesRow_of_encodes (decodeWord_eq_some.1 hd)

/-- Settles O5: the groups with a sub-key, each with the sub-keys that it lists. -/
theorem unknownWordsExactly : Obligations.UnknownWordsExactly := by
  unfold Obligations.UnknownWordsExactly
  intro w
  rw [decodeWord_eq_none, decodeGroup0_eq_none, decodeGroup8_eq_none, decodeGroupE_eq_none, decodeGroupF_eq_none]
  simp only [groupOf_eq_iff]
  rfl

/-- Settles O6: each word runs through the decoder. -/
theorem sampleWordsDecode : Obligations.SampleWordsDecode := by
  unfold Obligations.SampleWordsDecode
  decide

end Sys2Proof
end

section
/-!
PROOFS. The step cycle (30_encoding.md R60 to R63, R80): a step answers in every state (O10), runs the decoded instruction (O11),
leaves its word in `IR` (O15), does nothing where it cannot fetch (O13, O14); and a body that raises a condition does only that (O18).
-/

namespace Sys2Proof.Machine

-- ==== steps that do not fetch (R61, R62) ====

theorem step_of_noFetch {s : State} {c : Report} (h : s.noFetch = some c) : step s = .next (s.raise c) := by
  simp only [step, h]

/-- Where a step cannot fetch, no later step can: `PC` stays, and the report says the same. -/
theorem run_of_noFetch {s : State} {c : Report} (h : s.noFetch = some c) (k : Nat) :
    Sys2Proof.core.run (k + 1) s = .next (s.raise c) := by
  induction k generalizing s with
  | zero => exact run_succ_of_step (step_of_noFetch h) 0
  | succ k ih =>
    rw [run_succ_of_step (step_of_noFetch h)]
    exact ih (s := s.raise c) h

-- ==== a body that raises a condition (R80) ====

theorem report_skipIf (s : State) (c : Bool) : (s.skipIf c).report = s.report := by
  rw [skipIf_eq, State.setPc_report]

/-- A body leaves the report alone, or raises a condition and does nothing else. -/
theorem exec_raise_or_report {i : Instr} {s t : State} (h : exec i s = .next t) : (∃ c, t = s.raise c) ∨ t.report = s.report := by
  cases i with
  | ret =>
    cases h
    obtain ⟨_, _, -, -, hpop⟩ | hraise := returnToCaller_cases s
    · exact .inr (by rw [hpop])
    · exact .inl ⟨_, hraise⟩
  | call a =>
    cases h
    obtain ⟨_, hpush⟩ | hraise := callTo_cases s (target a)
    · exact .inr (by rw [hpush])
    · exact .inl ⟨_, hraise⟩
  | skipIfKey x => exact (execSkipIfKey_cases h).symm.imp_right fun ⟨c, hskip⟩ => hskip ▸ report_skipIf s c
  | skipIfNotKey x => exact (execSkipIfNotKey_cases h).symm.imp_right fun ⟨c, hskip⟩ => hskip ▸ report_skipIf s c
  | drawSprite x y n | storeBcd x | storeRegs x | loadRegs x =>
    cases h
    rw [guardRange_eq]
    split
    · exact .inr rfl
    · exact .inl ⟨_, rfl⟩
  | _ => exact .inr (exec_changesOnly h .report (by simp [mayChange]))

/-- A fetch whose body only reports a condition changes what every fetching step does, and nothing else. -/
theorem changesOnly_fetched_raise_tick (s : State) (c : Report) :
    ChangesOnly [.ir, .pc, .delay, .sound, .report] s (s.fetched.raise c).tick := by
  intro f hf
  cases f with
  | ir | pc | delay | sound | report => simp at hf
  | _ => rfl

-- ==== the statements ====

/-- Settles O10: a step that cannot fetch only reports, and every body answers. -/
theorem stepAlwaysAnswers : Obligations.StepAlwaysAnswers := by
  unfold Obligations.StepAlwaysAnswers
  intro s
  cases hf : s.noFetch with
  | some c => exact ⟨_, step_of_noFetch hf⟩
  | none =>
    obtain ⟨t, ht, -⟩ := step_ir_of_fetch (noFetch_none.1 hf)
    exact ⟨t, ht⟩

/-- Settles O13, by induction on the number of steps. -/
theorem haltedForEver : Obligations.HaltedForEver := by
  unfold Obligations.HaltedForEver
  intro s k h
  exact run_of_noFetch (noFetch_halted h) k

/-- Settles O14, by the same induction. -/
theorem lastAddressNeverFetches : Obligations.LastAddressNeverFetches := by
  unfold Obligations.LastAddressNeverFetches
  intro s k h
  exact run_of_noFetch (noFetch_last h) k

/-- Settles O15: the fetch leaves the word in `IR`, and no body writes `IR`. -/
theorem irHoldsTheFetchedWord : Obligations.IrHoldsTheFetchedWord := by
  unfold Obligations.IrHoldsTheFetchedWord
  intro s t hpc h
  obtain ⟨u, hu, hir⟩ := step_ir_of_fetch hpc
  obtain rfl : u = t := Host.Outcome.next.inj (hu.symm.trans h)
  rw [hir, State.wordAtPc, toNat_wordOfBytes]

/-- Settles O18: the report is clear after the fetch, so a body that leaves one has raised it, and has done nothing else. -/
theorem conditionLeavesNoPartialEffect : Obligations.ConditionLeavesNoPartialEffect := by
  unfold Obligations.ConditionLeavesNoPartialEffect
  intro s t i hpc hd h hrep
  obtain ⟨u, hu⟩ := exec_next i s.fetched
  obtain rfl : u.tick = t := Host.Outcome.next.inj ((step_of_exec hpc hd hu).symm.trans h)
  obtain ⟨c, rfl⟩ | hnone := exec_raise_or_report hu
  · exact ⟨rfl, toNat_pc_fetched hpc, toNat_tickTimer s.dt, toNat_tickTimer s.st, (changesOnly_fetched_raise_tick s c).sameExcept⟩
  · exact absurd hnone hrep

/-- Settles O11: the two bytes are the word at `PC`, and every body answers. -/
theorem stepRunsTheDecodedInstruction : Obligations.StepRunsTheDecodedInstruction := by
  unfold Obligations.StepRunsTheDecodedInstruction
  intro s i hpc hd
  obtain ⟨hw, -⟩ := decode_eq_instr.1 hd
  obtain ⟨u, hu⟩ := exec_next i s.fetched
  rw [step_of_exec hpc hw hu]
  simp only [State.fetched, State.wordAtPc] at hu
  rw [hu]
  rfl

end Sys2Proof.Machine
end

section
/-!
PROOFS. Control transfer (40_control.md): what a call pushes and a return pops (O24, O25), and that they are inverse (O26); the jumps
(O23, O29) and the skips (O27, O28), each with its encoding and its frame.
-/

namespace Sys2Proof.Machine

-- ==== an encoding written as a number (R65, R71) ====

/-- The number of one word that encodes `i` in its used bits decodes to `i`. -/
theorem decodesTo_of_encodes {w : Word} {n : Nat} {i : Instr} (h : Encodes w i) (hn : w.toNat = n) : DecodesTo n i := by
  intro w' hw'
  obtain rfl : w' = w := BitVec.eq_of_toNat_eq (hw'.trans hn.symm)
  exact decodeWord_eq_some.2 h

theorem decodesTo_of_toNat_encode {n : Nat} {i : Instr} (hwf : i.wellFormed = true) (hn : (encode i).toNat = n) : DecodesTo n i :=
  decodesTo_of_encodes (decodeWord_eq_some.1 (decodeWord_encode hwf)) hn

/-- Format `XY`: the low nibble may be any (R71). -/
theorem toNat_encodeXYS_ofNat (g : BitVec 4) (x y : Reg) {h : Nat} (hh : h < 16) :
    (encodeXYS g x y (BitVec.ofNat 4 h)).toNat = g.toNat * 4096 + x.val * 256 + y.val * 16 + h := by
  rw [toNat_encodeXYS, BitVec.toNat_ofNat, Nat.mod_eq_of_lt hh]

-- ==== the bodies ====

theorem exec_ret (s : State) : exec .ret s = .next s.returnToCaller := rfl

theorem exec_jump (nnn : Addr) (s : State) : exec (.jump nnn) s = .next (s.setPc (target nnn)) := rfl

theorem exec_jumpOffset (nnn : Addr) (s : State) : exec (.jumpOffset nnn) s = .next (s.setPc (offsetTarget nnn (s.reg 0))) := rfl

theorem exec_call (nnn : Addr) (s : State) : exec (.call nnn) s = .next (s.callTo (target nnn)) := rfl

theorem exec_skipEqImm (x : Reg) (kk : Byte) (s : State) :
    exec (.skipEqImm x kk) s = .next (s.skipIf (decide (s.reg x = kk))) := rfl

theorem exec_skipNeImm (x : Reg) (kk : Byte) (s : State) :
    exec (.skipNeImm x kk) s = .next (s.skipIf (decide (s.reg x ≠ kk))) := rfl

theorem exec_skipEqReg (x y : Reg) (s : State) :
    exec (.skipEqReg x y) s = .next (s.skipIf (decide (s.reg x = s.reg y))) := rfl

theorem exec_skipNeReg (x y : Reg) (s : State) :
    exec (.skipNeReg x y) s = .next (s.skipIf (decide (s.reg x ≠ s.reg y))) := rfl

-- ==== a call with room on the stack (R102) ====

section
variable {s : State} {a : Word} (h : s.sp.val < 16)
include h

theorem callTo_pc : (s.callTo a).pc = a := by rw [callTo_of_lt h]

theorem callTo_sp : (s.callTo a).sp.val = s.sp.val + 1 := by rw [callTo_of_lt h]

theorem callTo_slot (k : Fin 16) : (s.callTo a).stack.get k = if k.val = s.sp.val then s.pc else s.stack.get k := by
  rw [callTo_of_lt h]
  exact get_set_slot s.stack s.sp.val h s.pc k

/-- The call that is not refused raises nothing. -/
theorem changesOnly_callTo_of_lt : ChangesOnly [.pc, .sp, .stack] s (s.callTo a) := by
  rw [callTo_of_lt h]
  intro f hf
  cases f with
  | pc | sp | stack => simp at hf
  | _ => rfl

end

-- ==== a return with an address on the stack (R100) ====

section
variable {s : State} (h : 0 < s.sp.val)
include h

theorem returnToCaller_sp : s.returnToCaller.sp.val = s.sp.val - 1 := by rw [returnToCaller_of_pos h]

theorem returnToCaller_pc {k : Fin 16} (hk : k.val = s.sp.val - 1) : s.returnToCaller.pc = s.stack.get k := by
  rw [returnToCaller_of_pos h]
  exact congrArg s.stack.get (Fin.ext hk.symm)

/-- The return that is not refused raises nothing. -/
theorem changesOnly_returnToCaller_of_pos : ChangesOnly [.pc, .sp] s s.returnToCaller := by
  rw [returnToCaller_of_pos h]
  intro f hf
  cases f with
  | pc | sp => simp at hf
  | _ => rfl

end

/-- The slot that a call fills is the one that a return from the same stack reads (R100, R102). -/
theorem returnToCaller_of_callTo {s u : State} {a : Word} (h : s.sp.val < 16) (hsp : u.sp = (s.callTo a).sp)
    (hstack : u.stack = (s.callTo a).stack) : u.returnToCaller.pc = s.pc ∧ u.returnToCaller.sp = s.sp := by
  have hu : u.sp.val = s.sp.val + 1 := by rw [hsp, callTo_sp h]
  have hpos : 0 < u.sp.val := by omega
  constructor
  · rw [returnToCaller_pc hpos (k := ⟨s.sp.val, h⟩) (by simp [hu]), hstack, callTo_slot h, if_pos rfl]
  · exact Fin.ext (by rw [returnToCaller_sp hpos, hu, Nat.add_sub_cancel])

-- ==== skips (R103 to R106) ====

/-- A body that is a skip on `p` adds 2 to `PC` exactly when `p` holds, and changes nothing else. -/
theorem exec_skip {i : Instr} {s : State} {p : Prop} [Decidable p] (h : exec i s = .next (s.skipIf (decide p))) :
    ∃ t, exec i s = .next t ∧ t.pc = (if p then s.pc + 2 else s.pc) ∧ SameExcept [.pc] s t := by
  refine ⟨_, h, ?_, (changesOnly_skipIf s _).sameExcept⟩
  simp only [skipIf_eq, State.setPc_pc, decide_eq_true_eq]

/-- The same for a skip on `¬ p`. -/
theorem exec_skip_not {i : Instr} {s : State} {p : Prop} [Decidable p] (h : exec i s = .next (s.skipIf (decide (¬ p)))) :
    ∃ t, exec i s = .next t ∧ t.pc = (if p then s.pc else s.pc + 2) ∧ SameExcept [.pc] s t := by
  simpa only [ite_not] using exec_skip h

-- ==== the statements ====

/-- Settles O26: the pushed address is in the slot that the return reads. -/
theorem callThenReturnComesBack : Obligations.CallThenReturnComesBack := by
  unfold Obligations.CallThenReturnComesBack
  intro nnn s t u hroom hcall hsp hstack
  obtain rfl : s.callTo (target nnn) = t := Host.Outcome.next.inj hcall
  exact ⟨_, exec_ret u, returnToCaller_of_callTo hroom hsp hstack⟩

/-- Settles O23: a 12-bit target is its own value in `PC`. -/
theorem jumpSetsPc : Obligations.JumpSetsPc := by
  unfold Obligations.JumpSetsPc
  intro nnn
  refine ⟨decodesTo_of_toNat_encode rfl (toNat_encodeA 0x1 nnn), fun s => ?_⟩
  exact ⟨_, exec_jump nnn s, toNat_target nnn, exec_sameExcept (exec_jump nnn s)⟩

/-- Settles O24: a call pushes where there is room, and otherwise only reports. -/
theorem callPushesAndJumps : Obligations.CallPushesAndJumps := by
  unfold Obligations.CallPushesAndJumps
  intro nnn
  refine ⟨decodesTo_of_toNat_encode rfl (toNat_encodeA 0x2 nnn), fun s => ⟨fun hroom => ?_, fun hfull => ?_⟩⟩
  · have hpc : (s.callTo (target nnn)).pc.toNat = nnn.toNat := by rw [callTo_pc hroom, toNat_target]
    exact ⟨_, exec_call nnn s, hpc, callTo_sp hroom, callTo_slot hroom, (changesOnly_callTo_of_lt hroom).sameExcept⟩
  · rw [exec_call, callTo_full hfull]
    rfl

/-- Settles O25: a return pops where there is an address, and otherwise only reports; the nibble `h` is ignored. -/
theorem returnPops : Obligations.ReturnPops := by
  unfold Obligations.ReturnPops
  intro h hh
  have henc : Encodes (encodeXS 0x0 ⟨h, hh⟩ 0xEE) .ret := ⟨rfl, (Laws.FixedBits.encodeXS_key 0x0 ⟨h, hh⟩ 0xEE).symm⟩
  have hnum : (encodeXS 0x0 ⟨h, hh⟩ 0xEE).toNat = h * 256 + 0xEE := by simp [toNat_encodeXS]
  refine ⟨decodesTo_of_encodes henc hnum, fun s => ⟨fun hpos => ?_, fun hempty => ?_⟩⟩
  · exact ⟨_, exec_ret s, returnToCaller_sp hpos, fun k => returnToCaller_pc hpos, (changesOnly_returnToCaller_of_pos hpos).sameExcept⟩
  · rw [exec_ret, returnToCaller_empty hempty]
    rfl

/-- Settles O27: the two skips test the same equality, one for its negation. -/
theorem skipsOnImmediate : Obligations.SkipsOnImmediate := by
  unfold Obligations.SkipsOnImmediate
  intro x kk
  refine ⟨decodesTo_of_toNat_encode rfl (toNat_encodeXK 0x3 x kk), decodesTo_of_toNat_encode rfl (toNat_encodeXK 0x4 x kk), fun s => ?_⟩
  exact ⟨exec_skip (exec_skipEqImm x kk s), exec_skip_not (exec_skipNeImm x kk s)⟩

/-- Settles O28: the low nibble is not among the used bits of either row. -/
theorem skipsOnRegisters : Obligations.SkipsOnRegisters := by
  unfold Obligations.SkipsOnRegisters
  intro x y h hh
  have heq : Encodes (encodeXYS 0x5 x y (BitVec.ofNat 4 h)) (.skipEqReg x y) := ⟨rfl, (encodeXYS_and_0xFFF0 0x5 x y _).symm⟩
  have hne : Encodes (encodeXYS 0x9 x y (BitVec.ofNat 4 h)) (.skipNeReg x y) := ⟨rfl, (encodeXYS_and_0xFFF0 0x9 x y _).symm⟩
  refine ⟨decodesTo_of_encodes heq (toNat_encodeXYS_ofNat 0x5 x y hh),
    decodesTo_of_encodes hne (toNat_encodeXYS_ofNat 0x9 x y hh), fun s => ?_⟩
  exact ⟨exec_skip (exec_skipEqReg x y s), exec_skip_not (exec_skipNeReg x y s)⟩

/-- Settles O29: the sum of a 12-bit address and a byte fits `PC`. -/
theorem jumpOffsetAddsV0 : Obligations.JumpOffsetAddsV0 := by
  unfold Obligations.JumpOffsetAddsV0
  intro nnn
  refine ⟨decodesTo_of_toNat_encode rfl (toNat_encodeA 0xB nnn), fun s => ?_⟩
  exact ⟨_, exec_jumpOffset nnn s, toNat_offsetTarget nnn (s.reg 0), exec_sameExcept (exec_jumpOffset nnn s)⟩

end Sys2Proof.Machine
end

section
/-!
PROOFS. Register, arithmetic and logic instructions (41_alu.md): loads, moves and logic write `V[x]` alone (O30, O31, O35); the sums,
differences and shifts write a value and a flag, and with `x = 15` the later of the two writes stays (R79: O32, O33, O34).
-/

namespace Sys2Proof.Machine

-- ==== encodings written as numbers (R65, R71) ====

/-- Format `XYS` with the group and the key in one number, as R73 writes a row. -/
theorem toNat_encodeXYS_row {g lo : BitVec 4} {row : Nat} (x y : Reg) (h : g.toNat * 4096 + lo.toNat = row) :
    (encodeXYS g x y lo).toNat = row + x.val * 256 + y.val * 16 := by
  rw [toNat_encodeXYS, ← h]
  ring

/-- The shifts ignore bits 7:4 of the word (R71), so any `y` may stand there. -/
theorem encodes_shiftRight (x y : Reg) : Encodes (encodeXYS 0x8 x y 0x6) (.shiftRight x) := ⟨rfl, (encodeXYS_and_0xFF0F 0x8 x y 0x6).symm⟩

theorem encodes_shiftLeft (x y : Reg) : Encodes (encodeXYS 0x8 x y 0xE) (.shiftLeft x) := ⟨rfl, (encodeXYS_and_0xFF0F 0x8 x y 0xE).symm⟩

-- ==== flags as numbers (R126 to R130) ====

theorem toNat_flagByte (c : Bool) : (flagByte c).toNat = c.toNat := by cases c <;> rfl

theorem toNat_flagByte_decide (p : Prop) [Decidable p] : (flagByte (decide p)).toNat = if p then 1 else 0 := by
  rw [toNat_flagByte, Bool.toNat, Bool.cond_decide]

theorem toNat_carry (a b : Byte) : (carry a b).toNat = if 255 < a.toNat + b.toNat then 1 else 0 := toNat_flagByte_decide _

theorem toNat_noBorrow (a b : Byte) : (noBorrow a b).toNat = if b.toNat ≤ a.toNat then 1 else 0 := toNat_flagByte_decide _

theorem toNat_lowBit (a : Byte) : (lowBit a).toNat = a.toNat % 2 := by
  rw [lowBit, toNat_flagByte, BitVec.getLsbD, Nat.toNat_testBit, Nat.pow_zero, Nat.div_one]

theorem toNat_highBit (a : Byte) : (highBit a).toNat = a.toNat / 128 := by
  have := a.isLt
  rw [highBit, toNat_flagByte, BitVec.getLsbD, Nat.toNat_testBit]
  omega

-- ==== wrapped values as numbers (R127 to R130) ====

theorem toNat_byte_sub (a b : Byte) : (a - b).toNat = (a.toNat + 256 - b.toNat) % 256 := by
  have := b.isLt
  rw [BitVec.toNat_sub]
  omega

theorem toNat_byte_shiftRight_one (a : Byte) : (a >>> 1).toNat = a.toNat / 2 := by
  rw [BitVec.toNat_ushiftRight, Nat.shiftRight_eq_div_pow, Nat.pow_one]

theorem toNat_byte_shiftLeft_one (a : Byte) : (a <<< 1).toNat = a.toNat * 2 % 256 := by
  rw [BitVec.toNat_shiftLeft, Nat.shiftLeft_eq, Nat.pow_one]

-- ==== the bodies ====

theorem exec_loadImm (x : Reg) (kk : Byte) (s : State) : exec (.loadImm x kk) s = .next (s.setReg x kk) := rfl

theorem exec_addImm (x : Reg) (kk : Byte) (s : State) : exec (.addImm x kk) s = .next (s.setReg x (s.reg x + kk)) := rfl

theorem exec_regToReg (x y : Reg) (s : State) : exec (.regToReg x y) s = .next (s.setReg x (s.reg y)) := rfl

theorem exec_orReg (x y : Reg) (s : State) : exec (.orReg x y) s = .next (s.setReg x (s.reg x ||| s.reg y)) := rfl

theorem exec_andReg (x y : Reg) (s : State) : exec (.andReg x y) s = .next (s.setReg x (s.reg x &&& s.reg y)) := rfl

theorem exec_xorReg (x y : Reg) (s : State) : exec (.xorReg x y) s = .next (s.setReg x (s.reg x ^^^ s.reg y)) := rfl

theorem exec_addReg (x y : Reg) (s : State) :
    exec (.addReg x y) s = .next ((s.setReg x (s.reg x + s.reg y)).setReg vf (carry (s.reg x) (s.reg y))) := rfl

theorem exec_subRegFwd (x y : Reg) (s : State) :
    exec (.subRegFwd x y) s = .next ((s.setReg vf (noBorrow (s.reg x) (s.reg y))).setReg x (s.reg x - s.reg y)) := rfl

theorem exec_subRegRev (x y : Reg) (s : State) :
    exec (.subRegRev x y) s = .next ((s.setReg vf (noBorrow (s.reg y) (s.reg x))).setReg x (s.reg y - s.reg x)) := rfl

theorem exec_shiftRight (x : Reg) (s : State) :
    exec (.shiftRight x) s = .next ((s.setReg vf (lowBit (s.reg x))).setReg x (s.reg x >>> 1)) := rfl

theorem exec_shiftLeft (x : Reg) (s : State) :
    exec (.shiftLeft x) s = .next ((s.setReg vf (highBit (s.reg x))).setReg x (s.reg x <<< 1)) := rfl

theorem exec_randomAnd (x : Reg) (kk : Byte) (s : State) :
    exec (.randomAnd x kk) s = .next (s.setReg x (rndByte s &&& kk)).nextRnd := rfl

-- ==== one register written, or two (R79) ====

theorem reg_setReg_same (s : State) (x : Reg) (u : Byte) : (s.setReg x u).reg x = u := by rw [State.reg_setReg, if_pos rfl]

/-- Nothing but `V[x]` changes, `VF` included. -/
theorem setReg_frame (s : State) (x : Reg) (u : Byte) :
    (∀ r, r ≠ x → (s.setReg x u).reg r = s.reg r) ∧ SameExcept [.regs] s (s.setReg x u) :=
  ⟨fun _ hr => reg_setReg_ne hr u, (changesOnly_setReg s x u).sameExcept⟩

theorem changesOnly_setReg_setReg (s : State) (x y : Reg) (u u' : Byte) : ChangesOnly [.regs] s ((s.setReg x u).setReg y u') :=
  (changesOnly_setReg s x u).trans (changesOnly_setReg _ y u')

/-- A body that writes the value and then the flag (R126): the flag stays, whatever `x` is. Both as numbers. -/
theorem exec_value_then_flag {i : Instr} {s : State} {x : Reg} {u f : Byte} {n m : Nat}
    (h : exec i s = .next ((s.setReg x u).setReg vf f)) (hu : u.toNat = n) (hf : f.toNat = m) :
    ∃ t, exec i s = .next t ∧ (t.reg 15).toNat = m ∧ (x ≠ 15 → (t.reg x).toNat = n) ∧
      (∀ r, r ≠ x → r ≠ 15 → t.reg r = s.reg r) ∧ SameExcept [.regs] s t := by
  refine ⟨_, h, ?_, fun hx => ?_, fun r hx hvf => reg_setReg_setReg_ne hx hvf u f, (changesOnly_setReg_setReg s x vf u f).sameExcept⟩
  · rw [reg_setReg_same, hf]
  · rw [reg_setReg_ne hx, reg_setReg_same, hu]

/-- A body that writes the flag and then the value (R127 to R130): the value stays, whatever `x` is. Both as numbers. -/
theorem exec_flag_then_value {i : Instr} {s : State} {x : Reg} {u f : Byte} {n m : Nat}
    (h : exec i s = .next ((s.setReg vf f).setReg x u)) (hu : u.toNat = n) (hf : f.toNat = m) :
    ∃ t, exec i s = .next t ∧ (t.reg x).toNat = n ∧ (x ≠ 15 → (t.reg 15).toNat = m) ∧
      (∀ r, r ≠ x → r ≠ 15 → t.reg r = s.reg r) ∧ SameExcept [.regs] s t := by
  refine ⟨_, h, ?_, fun hx => ?_, fun r hx hvf => reg_setReg_setReg_ne hvf hx f u, (changesOnly_setReg_setReg s vf x f u).sameExcept⟩
  · rw [reg_setReg_same, hu]
  · rw [reg_setReg_ne hx.symm, reg_setReg_same, hf]

-- ==== the statements ====

/-- Settles O30: the three write `V[x]` alone; the sum is the byte sum. -/
theorem loadAddAndMove : Obligations.LoadAddAndMove := by
  unfold Obligations.LoadAddAndMove
  intro x y kk
  refine ⟨decodesTo_of_toNat_encode rfl (toNat_encodeXK 0x6 x kk), decodesTo_of_toNat_encode rfl (toNat_encodeXK 0x7 x kk),
    decodesTo_of_toNat_encode rfl (toNat_encodeXYS_row x y rfl), fun s => ⟨?_, ?_, ?_⟩⟩
  · exact ⟨_, exec_loadImm x kk s, reg_setReg_same s x kk, setReg_frame s x kk⟩
  · refine ⟨_, exec_addImm x kk s, ?_, setReg_frame s x _⟩
    rw [reg_setReg_same, BitVec.toNat_add]
  · exact ⟨_, exec_regToReg x y s, reg_setReg_same s x _, setReg_frame s x _⟩

/-- Settles O31: the three write `V[x]` alone, with the byte operation of the same name. -/
theorem logicBitByBit : Obligations.LogicBitByBit := by
  unfold Obligations.LogicBitByBit
  intro x y
  refine ⟨decodesTo_of_toNat_encode rfl (toNat_encodeXYS_row x y rfl), decodesTo_of_toNat_encode rfl (toNat_encodeXYS_row x y rfl),
    decodesTo_of_toNat_encode rfl (toNat_encodeXYS_row x y rfl), fun s => ⟨?_, ?_, ?_⟩⟩
  · refine ⟨_, exec_orReg x y s, fun b => ?_, setReg_frame s x _⟩
    rw [reg_setReg_same, BitVec.getLsbD_or]
  · refine ⟨_, exec_andReg x y s, fun b => ?_, setReg_frame s x _⟩
    rw [reg_setReg_same, BitVec.getLsbD_and]
  · refine ⟨_, exec_xorReg x y s, fun b => ?_, setReg_frame s x _⟩
    rw [reg_setReg_same, BitVec.getLsbD_xor]

/-- Settles O32: the carry is the later write, so with `x = 15` it stays. -/
theorem addRegSumAndCarry : Obligations.AddRegSumAndCarry := by
  unfold Obligations.AddRegSumAndCarry
  intro x y
  refine ⟨decodesTo_of_toNat_encode rfl (toNat_encodeXYS_row x y rfl), fun s => ?_⟩
  exact exec_value_then_flag (exec_addReg x y s) (BitVec.toNat_add _ _) (toNat_carry _ _)

/-- Settles O33: the difference is the later write, so with `x = 15` it stays. -/
theorem subtractAndNoBorrow : Obligations.SubtractAndNoBorrow := by
  unfold Obligations.SubtractAndNoBorrow
  intro x y
  refine ⟨decodesTo_of_toNat_encode rfl (toNat_encodeXYS_row x y rfl), decodesTo_of_toNat_encode rfl (toNat_encodeXYS_row x y rfl),
    fun s => ⟨?_, ?_⟩⟩
  · exact exec_flag_then_value (exec_subRegFwd x y s) (toNat_byte_sub _ _) (toNat_noBorrow _ _)
  · exact exec_flag_then_value (exec_subRegRev x y s) (toNat_byte_sub _ _) (toNat_noBorrow _ _)

/-- Settles O34: the shifted value is the later write, so with `x = 15` it stays; the nibble `h` is not among the used bits. -/
theorem shiftsByOne : Obligations.ShiftsByOne := by
  unfold Obligations.ShiftsByOne
  intro x h hh
  refine ⟨decodesTo_of_encodes (encodes_shiftRight x ⟨h, hh⟩) (toNat_encodeXYS_row x ⟨h, hh⟩ rfl),
    decodesTo_of_encodes (encodes_shiftLeft x ⟨h, hh⟩) (toNat_encodeXYS_row x ⟨h, hh⟩ rfl), fun s => ⟨?_, ?_⟩⟩
  · exact exec_flag_then_value (exec_shiftRight x s) (toNat_byte_shiftRight_one _) (toNat_lowBit _)
  · exact exec_flag_then_value (exec_shiftLeft x s) (toNat_byte_shiftLeft_one _) (toNat_highBit _)

/-- Settles O35: whatever byte the draw gives, `V[x]` gets it under the mask, and the next draw is another one. -/
theorem randomAndMasksTheByte : Obligations.RandomAndMasksTheByte := by
  unfold Obligations.RandomAndMasksTheByte
  intro x kk
  refine ⟨decodesTo_of_toNat_encode rfl (toNat_encodeXK 0xC x kk), fun s => ?_⟩
  refine ⟨_, exec_randomAnd x kk s, fun b => ?_, fun r hr => reg_setReg_ne hr _, rfl, exec_sameExcept (exec_randomAnd x kk s)⟩
  rw [State.reg_nextRnd, reg_setReg_same, BitVec.getLsbD_and, rndByte]

end Sys2Proof.Machine
end

section
/-!
PROOFS. Index register and memory instructions (42_index_memory.md): the stores put their bytes from `I` on and leave every other byte
alone (O39, O40), the load fills `V[0]` to `V[x]` (O41); `I` is set, added to and pointed at a glyph (O36, O37, O38).
-/

namespace Sys2Proof.Machine

-- ==== encodings and values written as numbers (R65, R141) ====

/-- Format `XS` with the group and the key in one number, as R73 writes a row. -/
theorem toNat_encodeXS_row {g : BitVec 4} {lo8 : Byte} {row : Nat} (x : Reg) (h : g.toNat * 4096 + lo8.toNat = row) :
    (encodeXS g x lo8).toNat = row + x.val * 256 := by
  rw [toNat_encodeXS, ← h]
  ring

theorem toNat_indexCarry (i : Addr) (a : Byte) : (indexCarry i a).toNat = if 0xFFF < i.toNat + a.toNat then 1 else 0 :=
  toNat_flagByte_decide _

-- ==== the bodies ====

theorem exec_setIndex (nnn : Addr) (s : State) : exec (.setIndex nnn) s = .next (s.setIndex nnn) := rfl

theorem exec_addToIndex (x : Reg) (s : State) :
    exec (.addToIndex x) s = .next ((s.setReg vf (indexCarry s.i (s.reg x))).setIndex (indexSum s.i (s.reg x))) := rfl

theorem exec_fontChar (x : Reg) (s : State) : exec (.fontChar x) s = .next (s.setIndex (glyphAddr (s.reg x))) := rfl

/-- load-regs whose range ends inside memory loads `V[0]` to `V[x]` (R145). -/
theorem exec_loadRegs_of_le {s : State} {x : Reg} (h : s.i.toNat + x.val + 1 ≤ 4096) :
    exec (.loadRegs x) s = .next (s.setRegs (loadedReg s x)) := by
  rw [exec_loadRegs, guardRange_of_le (len := x.val + 1) (by omega)]

-- ==== reads after a store (R47, R49) ====

theorem read_writeRange_outside {m : Memory} (hm : m.wf = true) {a c : Nat} {us : List Byte} (ha : a + us.length ≤ 4096)
    (hc : ¬ (a ≤ c ∧ c < a + us.length)) : (m.writeRange a us).read c = m.read c := by
  rw [Memory.read_writeRange hm ha, if_neg hc]

/-- Each digit that store-bcd writes is read back as a number at its place (R143). -/
theorem toNat_read_writeRange_bcdDigits {m : Memory} (hm : m.wf = true) {a k : Nat} (ha : a + 3 ≤ 4096) (b : Byte) (hk : k < 3) :
    ((m.writeRange a (bcdDigits b)).read (a + k)).toNat = [b.toNat / 100, b.toNat / 10 % 10, b.toNat % 10].getD k 0 := by
  rw [read_writeRange_add hm ha hk, toNat_getD_bcdDigits b hk]

/-- Each register that store-regs writes is read back at its place (R144). -/
theorem read_writeRange_regsUpTo {m : Memory} (hm : m.wf = true) {a : Nat} (s : State) {x k : Reg} (ha : a + x.val + 1 ≤ 4096)
    (hk : k ≤ x) : (m.writeRange a (regsUpTo s x)).read (a + k.val) = s.reg k := by
  have hlen := length_regsUpTo s x
  have hk' : k.val < (regsUpTo s x).length := hlen ▸ Nat.lt_succ_of_le hk
  rw [read_writeRange_add hm (by omega) hk', getD_regsUpTo s x hk]

-- ==== which registers a load fills (R145) ====

theorem reg_setRegs_loadedReg_of_le (s : State) {x k : Reg} (h : k ≤ x) :
    (s.setRegs (loadedReg s x)).reg k = s.mem.read (s.i.toNat + k.val) := by
  rw [State.reg_setRegs, loadedReg, if_pos h]

theorem reg_setRegs_loadedReg_of_lt (s : State) {x k : Reg} (h : x < k) : (s.setRegs (loadedReg s x)).reg k = s.reg k := by
  rw [State.reg_setRegs, loadedReg, if_neg (not_le.2 h)]

-- ==== the statements ====

/-- Settles O39: the body is one range write of the three digits. -/
theorem storeBcdWritesDigits : Obligations.StoreBcdWritesDigits := by
  unfold Obligations.StoreBcdWritesDigits
  intro x
  refine ⟨decodesTo_of_toNat_encode rfl (toNat_encodeXS_row x rfl), fun s hm hi => ?_⟩
  have digit {k : Nat} (hk : k < 3) := toNat_read_writeRange_bcdDigits hm hi (s.reg x) hk
  exact ⟨_, exec_storeBcd_of_le x hi, digit (k := 0) (by decide), digit (k := 1) (by decide), digit (k := 2) (by decide),
    fun a ha => read_writeRange_outside hm hi ha, (changesOnly_setMem s _).sameExcept⟩

/-- Settles O40: the body is one range write of `V[0]` to `V[x]`. -/
theorem storeRegsCopiesOut : Obligations.StoreRegsCopiesOut := by
  unfold Obligations.StoreRegsCopiesOut
  intro x
  refine ⟨decodesTo_of_toNat_encode rfl (toNat_encodeXS_row x rfl), fun s hm hi => ?_⟩
  have hlen := length_regsUpTo s x
  exact ⟨_, exec_storeRegs_of_le hi, fun k hk => read_writeRange_regsUpTo hm s hi hk,
    fun a ha => read_writeRange_outside hm (by omega) (by omega), (changesOnly_setMem s _).sameExcept⟩

/-- Settles O41: every register up to `x` is loaded at once, and the others keep their values. -/
theorem loadRegsCopiesIn : Obligations.LoadRegsCopiesIn := by
  unfold Obligations.LoadRegsCopiesIn
  intro x
  refine ⟨decodesTo_of_toNat_encode rfl (toNat_encodeXS_row x rfl), fun s hi => ?_⟩
  exact ⟨_, exec_loadRegs_of_le hi, fun k hk => reg_setRegs_loadedReg_of_le s hk, fun k hk => reg_setRegs_loadedReg_of_lt s hk,
    (changesOnly_setRegs s _).sameExcept⟩

/-- Settles O36: the body sets `I` alone. -/
theorem setIndexLoadsI : Obligations.SetIndexLoadsI := by
  unfold Obligations.SetIndexLoadsI
  intro nnn
  refine ⟨decodesTo_of_toNat_encode rfl (toNat_encodeA 0xA nnn), fun s => ?_⟩
  exact ⟨_, exec_setIndex nnn s, State.setIndex_i s nnn, exec_sameExcept (exec_setIndex nnn s)⟩

/-- Settles O37: carry and sum are both taken from the old `I` and `V[x]`, so with `x = 15` the addend is the old `VF`. -/
theorem addToIndexSumAndCarry : Obligations.AddToIndexSumAndCarry := by
  unfold Obligations.AddToIndexSumAndCarry
  intro x
  refine ⟨decodesTo_of_toNat_encode rfl (toNat_encodeXS_row x rfl), fun s => ?_⟩
  refine ⟨_, exec_addToIndex x s, toNat_indexSum s.i (s.reg x), ?_, fun r hr => reg_setReg_ne hr _,
    exec_sameExcept (exec_addToIndex x s)⟩
  rw [State.reg_setIndex, reg_setReg_same, toNat_indexCarry]

/-- Settles O38: five times a byte fits `I`. -/
theorem fontCharTimesFive : Obligations.FontCharTimesFive := by
  unfold Obligations.FontCharTimesFive
  intro x
  refine ⟨decodesTo_of_toNat_encode rfl (toNat_encodeXS_row x rfl), fun s => ?_⟩
  exact ⟨_, exec_fontChar x s, toNat_glyphAddr (s.reg x), exec_sameExcept (exec_fontChar x s)⟩

end Sys2Proof.Machine
end

section
/-!
PROOFS. Display instructions (43_display.md): clear-screen zeroes every cell (O44); draw-sprite XORs its rows into the screen, clipped,
and reports in `VF` whether a cell went off (O45); a second draw of the same sprite undoes the first (O46).
-/

namespace Sys2Proof.Machine

-- ==== cells by number and by place (R21, R162) ====

theorem cell_of_lt (d : Display) {cx : Nat} (cy : Nat) (h : cx < 64) : d.cell (cy * 64 + cx) = d.pixel cx cy := by
  rw [Display.cell, show (cy * 64 + cx) % 64 = cx by omega, show (cy * 64 + cx) / 64 = cy by omega]

/-- A cell of the screen goes off exactly when one at some place does: no place outside the screen is on. -/
theorem exists_cell_off_iff {d d' : Display} :
    (∃ c < 2048, d.cell c = true ∧ d'.cell c = false) ↔ ∃ cx cy, d.pixel cx cy = true ∧ d'.pixel cx cy = false := by
  constructor
  · rintro ⟨c, -, h⟩
    exact ⟨c % 64, c / 64, h⟩
  · rintro ⟨cx, cy, hon, hoff⟩
    have hscreen : cx < 64 ∧ cy < 32 := by
      by_contra hout
      simp [pixel_outside d hout] at hon
    obtain ⟨hcx, hcy⟩ := hscreen
    exact ⟨cy * 64 + cx, by omega, by rwa [cell_of_lt d cy hcx], by rwa [cell_of_lt d' cy hcx]⟩

-- ==== the bodies ====

theorem exec_clearScreen (s : State) : exec .clearScreen s = .next (s.setDisp Display.clear) := rfl

/-- draw-sprite whose rows lie inside memory draws them, clipped or not, and then writes `VF` (R161). -/
theorem exec_drawSprite_of_le {s : State} (x y : Reg) {n : Nat} (h : n = 0 ∨ s.i.toNat + n ≤ 4096) :
    exec (.drawSprite x y n) s = .next ((s.setDisp (drawn x y n s).1).setReg vf (collision (drawn x y n s).2)) := by
  rw [exec_drawSprite, guardRange_eq, if_pos h]

/-- draw-sprite with a row past the end of memory is refused, drawing nothing (R42, R207). -/
theorem exec_drawSprite_refused {s : State} (x y : Reg) {n : Nat} (h : ¬ (n = 0 ∨ s.i.toNat + n ≤ 4096)) :
    exec (.drawSprite x y n) s = .next (s.raise (.addressOutOfRange (s.i.toNat + n - 1))) := by
  rw [exec_drawSprite, guardRange_eq, if_neg h]

-- ==== what a draw makes of the display (R161 to R163) ====

/-- A place on the screen is XORed with the bit of the sprite row that falls on it, if one does. -/
theorem pixel_drawn (x y : Reg) (n : Nat) (s : State) {cx cy : Nat} (hcx : cx < 64) (hcy : cy < 32) :
    (drawn x y n s).1.pixel cx cy = (s.disp.pixel cx cy ^^
      (decide ((s.reg x).toNat ≤ cx ∧ cx < (s.reg x).toNat + 8 ∧ (s.reg y).toNat ≤ cy ∧ cy < (s.reg y).toNat + n) &&
        (s.mem.read (s.i.toNat + (cy - (s.reg y).toNat))).getLsbD (7 - (cx - (s.reg x).toNat)))) := by
  rw [drawn, pixel_drawRows, length_spriteRows, getLsbD_spriteMask]
  by_cases hrow : (s.reg y).toNat ≤ cy ∧ cy < (s.reg y).toNat + n
  · rw [spriteRows, Memory.getD_readRange _ _ _ _ (by omega)]
    simp [hcx, hcy, hrow]
  · simp [hcy, hrow]

/-- The flag of a draw tells whether a cell of the screen went off (R161). -/
theorem drawn_hit (x y : Reg) (n : Nat) (s : State) :
    (drawn x y n s).2 = true ↔ ∃ c < 2048, s.disp.cell c = true ∧ (drawn x y n s).1.cell c = false := by
  rw [drawn, hit_drawRows, exists_cell_off_iff]

/-- XOR is its own inverse, so the same rows drawn at the same place twice leave every place as it was. -/
theorem pixel_drawRows_twice (d : Display) (px cy : Nat) (rows : List Byte) (cx ry : Nat) :
    ((d.drawRows px cy rows).1.drawRows px cy rows).1.pixel cx ry = d.pixel cx ry := by
  rw [pixel_drawRows, pixel_drawRows, Bool.xor_assoc, Bool.xor_self, Bool.xor_false]

/-- Another display and another `VF` leave the place and the rows of a sprite alone, when its place is not taken from `VF`. -/
theorem drawn_setDisp_setReg_vf {x y : Reg} (hx : x ≠ vf) (hy : y ≠ vf) (n : Nat) (s : State) (d : Display) (f : Byte) :
    drawn x y n ((s.setDisp d).setReg vf f) = d.drawRows (s.reg x).toNat (s.reg y).toNat (spriteRows s n) := by
  rw [drawn, reg_setReg_ne hx, reg_setReg_ne hy]
  rfl

-- ==== the statements ====

/-- Settles O45. The draw writes the display and then `VF`, both computed from the state before it, so `x` or `y` may be 15. -/
theorem drawSpriteCellByCell : Obligations.DrawSpriteCellByCell := by
  unfold Obligations.DrawSpriteCellByCell
  intro x y n
  refine ⟨fun hn => decodesTo_of_toNat_encode (decide_eq_true (Nat.le_of_lt_succ hn)) (toNat_encodeXYS_ofNat 0xD x y hn), fun s hr => ?_⟩
  refine ⟨_, exec_drawSprite_of_le x y hr, fun cx cy hcx hcy => ?_, fun hoff => ?_, fun hkeep => ?_, fun r hvf => reg_setReg_ne hvf _,
    ((changesOnly_setDisp s _).trans (changesOnly_setReg _ vf _)).sameExcept⟩
  · rw [cell_of_lt _ cy hcx, cell_of_lt _ cy hcx]
    exact pixel_drawn x y n s hcx hcy
  · have hhit : (drawn x y n s).2 = true := (drawn_hit x y n s).2 hoff
    rw [reg_setReg_same, hhit]
    rfl
  · have hmiss : (drawn x y n s).2 = false := by
      rw [Bool.eq_false_iff, Ne, drawn_hit]
      rintro ⟨c, hc, hon, hoff⟩
      exact Bool.false_ne_true (hoff.symm.trans (hkeep c hc hon))
    rw [reg_setReg_same, hmiss]
    rfl

/-- Settles O46: either both draws are refused, or the second XORs the same rows into the same place. -/
theorem drawTwiceRestoresTheDisplay : Obligations.DrawTwiceRestoresTheDisplay := by
  unfold Obligations.DrawTwiceRestoresTheDisplay
  intro x y n s t hx hy h
  by_cases hr : n = 0 ∨ s.i.toNat + n ≤ 4096
  · rw [exec_drawSprite_of_le x y hr] at h
    cases h
    refine ⟨_, exec_drawSprite_of_le x y hr, fun c _ => ?_⟩
    rw [drawn_setDisp_setReg_vf hx hy]
    exact pixel_drawRows_twice s.disp _ _ _ _ _
  · rw [exec_drawSprite_refused x y hr] at h
    cases h
    exact ⟨_, exec_drawSprite_refused x y hr, fun _ _ => rfl⟩

/-- Settles O44: the body sets the display alone; the nibble `h` is ignored. -/
theorem clearScreenZeroesAllCells : Obligations.ClearScreenZeroesAllCells := by
  unfold Obligations.ClearScreenZeroesAllCells
  intro h hh
  have henc : Encodes (encodeXS 0x0 ⟨h, hh⟩ 0xE0) .clearScreen := ⟨rfl, (Laws.FixedBits.encodeXS_key 0x0 ⟨h, hh⟩ 0xE0).symm⟩
  have hnum : (encodeXS 0x0 ⟨h, hh⟩ 0xE0).toNat = h * 256 + 0xE0 := by simp [toNat_encodeXS]
  refine ⟨decodesTo_of_encodes henc hnum, fun s => ?_⟩
  exact ⟨_, exec_clearScreen s, fun _ _ => pixel_clear _ _, exec_sameExcept (exec_clearScreen s)⟩

end Sys2Proof.Machine
end

section
/-!
PROOFS. Keypad and timer instructions (44_keypad_timers.md): wait-key takes the least pressed key or stays (O49), so a waiting machine
runs nothing else until a key is pressed (O50); the skips on a key (O47) and the transfers between a register and a timer (O48).
-/

namespace Sys2Proof.Machine

-- ==== the bodies ====

theorem exec_readDelay (x : Reg) (s : State) : exec (.readDelay x) s = .next (s.setReg x s.dt) := rfl

theorem exec_setDelay (x : Reg) (s : State) : exec (.setDelay x) s = .next (s.setDt (s.reg x)) := rfl

theorem exec_setSound (x : Reg) (s : State) : exec (.setSound x) s = .next (s.setSt (s.reg x)) := rfl

/-- wait-key with a key pressed takes the least one (R173). -/
theorem exec_waitKey_of_pressed (x : Reg) {s : State} {k : Fin 16} (hk : s.keyDown k = true)
    (hleast : ∀ j : Fin 16, j < k → s.keyDown j = false) : exec (.waitKey x) s = .next (s.setReg x (keyByte k)) := by
  simp only [exec, execWaitKey, firstKey_eq_some hk hleast]

/-- wait-key with no key pressed goes back to its own address (R173). -/
theorem exec_waitKey_of_none (x : Reg) {s : State} (h : ∀ k : Fin 16, s.keyDown k = false) :
    exec (.waitKey x) s = .next (s.setPc (s.pc - 2)) := by
  simp only [exec, execWaitKey, firstKey_eq_none h]

-- ==== skips on a key (R170, R171, R208) ====

theorem keyIndex_eq_some {a : Byte} {k : Fin 16} (h : a.toNat = k.val) : keyIndex a = some k := by
  rw [keyIndex_of_lt (h ▸ k.isLt)]
  exact congrArg some (Fin.ext h)

section
variable {x : Reg} {s : State}

theorem exec_skipIfKey_of_index {k : Fin 16} (h : (s.reg x).toNat = k.val) :
    exec (.skipIfKey x) s = .next (s.skipIf (decide (s.keyDown k = true))) := by
  simp only [exec, execSkipIfKey, keyIndex_eq_some h, Bool.decide_eq_true]

theorem exec_skipIfNotKey_of_index {k : Fin 16} (h : (s.reg x).toNat = k.val) :
    exec (.skipIfNotKey x) s = .next (s.skipIf (decide (¬ s.keyDown k = true))) := by
  simp only [exec, execSkipIfNotKey, keyIndex_eq_some h, decide_not, Bool.decide_eq_true]

theorem exec_skipIfKey_refused (h : 15 < (s.reg x).toNat) :
    exec (.skipIfKey x) s = .next (s.raise (.keyIndexOutOfRange (s.reg x))) := by
  simp only [exec, execSkipIfKey, keyIndex_of_ge h]

theorem exec_skipIfNotKey_refused (h : 15 < (s.reg x).toNat) :
    exec (.skipIfNotKey x) s = .next (s.raise (.keyIndexOutOfRange (s.reg x))) := by
  simp only [exec, execSkipIfNotKey, keyIndex_of_ge h]

end

-- ==== the latch (R217) ====

theorem setInput_pc (keys : Vector Nat 16) (s : State) : (setInput keys s).pc = s.pc := rfl

theorem setInput_reg (keys : Vector Nat 16) (s : State) (r : Reg) : (setInput keys s).reg r = s.reg r := rfl

theorem setInput_wordAtPc (keys : Vector Nat 16) (s : State) : (setInput keys s).wordAtPc = s.wordAtPc := rfl

theorem keyDown_setInput (keys : Vector Nat 16) (s : State) (k : Fin 16) : (setInput keys s).keyDown k = decide (keys.get k ≠ 0) := by
  simp [State.keyDown, setInput, Vector.get_eq_getElem]

-- ==== waiting (R24, R176) ====

theorem changesOnly_refl (fs : List Field) (s : State) : ChangesOnly fs s s := by
  intro f _
  cases f <;> rfl

/-- The parts of the state that a step of a waiting machine may change. -/
abbrev waitingChanges : List Field := [.ir, .delay, .sound, .report]

/-- A step of a waiting machine is a fetch that ends at the same `PC`, and the timers. -/
theorem step_of_waiting {x : Reg} {s : State} (h : Waiting x s) : step s = .next (s.fetched.setPc s.pc).tick := by
  obtain ⟨hpc, hd, hnone⟩ := h
  have hx := exec_waitKey_of_none x (s := s.fetched) hnone
  rw [State.fetched_pc, BitVec.add_sub_cancel] at hx
  exact step_of_exec hpc hd hx

theorem changesOnly_fetched_setPc_tick (s : State) : ChangesOnly waitingChanges s (s.fetched.setPc s.pc).tick := by
  intro f hf
  cases f with
  | ir | delay | sound | report => simp at hf
  | _ => rfl

/-- Waiting is a matter of `PC`, memory and the latch, so what a waiting step changes leaves it. -/
theorem Waiting.of_changesOnly {x : Reg} {s t : State} (h : Waiting x s) (hst : ChangesOnly waitingChanges s t) : Waiting x t := by
  have hpc : t.pc = s.pc := hst .pc (by simp)
  have hmem : t.mem = s.mem := hst .memory (by simp)
  have hkey : t.key = s.key := hst .keys (by simp)
  unfold Waiting Fetches State.wordAtPc State.keyDown at h ⊢
  rwa [hpc, hmem, hkey]

/-- However many steps a waiting machine takes, it still waits, at the same place in the same state (R176 (a)). -/
theorem run_of_waiting {x : Reg} {s : State} (h : Waiting x s) (k : Nat) :
    ∃ t, Sys2Proof.core.run k s = .next t ∧ Waiting x t ∧ ChangesOnly waitingChanges s t := by
  induction k generalizing s with
  | zero => exact ⟨s, run_zero s, h, changesOnly_refl _ s⟩
  | succ k ih =>
    have hstep := changesOnly_fetched_setPc_tick s
    obtain ⟨t, hrun, hwait, hrest⟩ := ih (h.of_changesOnly hstep)
    exact ⟨t, by rw [run_succ_of_step (step_of_waiting h), hrun], hwait, hstep.trans hrest⟩

/-- The step of a machine that stood at wait-key when the latch was written stores the least key of the latch and goes on
(R176 (b)). -/
theorem step_setInput_of_waiting {x : Reg} {s : State} (h : Waiting x s) {keys : Vector Nat 16} {k : Fin 16} (hk : keys.get k ≠ 0)
    (hleast : ∀ j : Fin 16, j < k → keys.get j = 0) :
    step (setInput keys s) = .next ((setInput keys s).fetched.setReg x (keyByte k)).tick := by
  obtain ⟨hpc, hd, -⟩ := h
  rw [Fetches, ← setInput_pc keys] at hpc
  rw [← setInput_wordAtPc keys] at hd
  refine step_of_exec hpc hd (exec_waitKey_of_pressed x ?_ fun j hj => ?_)
  · rw [State.keyDown_fetched, keyDown_setInput, decide_eq_true hk]
  · rw [State.keyDown_fetched, keyDown_setInput, decide_eq_false (not_not.2 (hleast j hj))]

theorem changesOnly_setInput_fetched_setReg_tick (keys : Vector Nat 16) (s : State) (x : Reg) (u : Byte) :
    ChangesOnly [.regs, .pc, .keys, .ir, .delay, .sound, .report] s ((setInput keys s).fetched.setReg x u).tick := by
  intro f hf
  cases f with
  | regs | pc | keys | ir | delay | sound | report => simp at hf
  | _ => simp [EqField, setInput]

-- ==== the statements ====

/-- Settles O49: the body writes `V[x]` where a key is pressed, and otherwise only `PC`. -/
theorem waitKeyTakesTheLeastKey : Obligations.WaitKeyTakesTheLeastKey := by
  unfold Obligations.WaitKeyTakesTheLeastKey
  intro x
  refine ⟨decodesTo_of_toNat_encode rfl (toNat_encodeXS_row x rfl), fun s => ⟨fun k hk hleast => ?_, fun hnone => ?_⟩⟩
  · refine ⟨_, exec_waitKey_of_pressed x hk hleast, ?_, setReg_frame s x _⟩
    rw [reg_setReg_same, toNat_keyByte]
  · exact ⟨_, exec_waitKey_of_none x hnone, rfl, (changesOnly_setPc s _).sameExcept⟩

/-- Settles O50: (a) by induction on the number of steps; (b) the same fetch, with a latch in which wait-key finds a key. -/
theorem waitingUntilAKeyIsPressed : Obligations.WaitingUntilAKeyIsPressed := by
  unfold Obligations.WaitingUntilAKeyIsPressed
  intro x s h
  refine ⟨fun k => ?_, fun keys k hk hleast => ?_⟩
  · obtain ⟨t, hrun, hwait, hframe⟩ := run_of_waiting h k
    exact ⟨t, hrun, hwait, hframe.sameExcept⟩
  · have ⟨hpc, _, _⟩ := h
    refine ⟨_, step_setInput_of_waiting h hk hleast, ?_, ?_, fun r hr => ?_,
      (changesOnly_setInput_fetched_setReg_tick keys s x _).sameExcept⟩
    · rw [State.reg_tick, reg_setReg_same, toNat_keyByte]
    · rw [State.tick_pc, State.setReg_pc, State.fetched_pc, setInput_pc, toNat_add_two (by omega)]
    · rw [State.reg_tick, reg_setReg_ne hr, State.reg_fetched, setInput_reg]

/-- Settles O47: a register value that names a key makes a skip on that key, and one above 15 only a report. -/
theorem skipsOnKey : Obligations.SkipsOnKey := by
  unfold Obligations.SkipsOnKey
  intro x
  refine ⟨decodesTo_of_toNat_encode rfl (toNat_encodeXS_row x rfl), decodesTo_of_toNat_encode rfl (toNat_encodeXS_row x rfl),
    fun s => ⟨fun k hk => ?_, fun hlarge => ?_⟩⟩
  · exact ⟨exec_skip (exec_skipIfKey_of_index hk), exec_skip_not (exec_skipIfNotKey_of_index hk)⟩
  · exact ⟨exec_skipIfKey_refused hlarge, exec_skipIfNotKey_refused hlarge⟩

/-- Settles O48: each body writes one register or one timer. -/
theorem timerTransfers : Obligations.TimerTransfers := by
  unfold Obligations.TimerTransfers
  intro x
  refine ⟨decodesTo_of_toNat_encode rfl (toNat_encodeXS_row x rfl), decodesTo_of_toNat_encode rfl (toNat_encodeXS_row x rfl),
    decodesTo_of_toNat_encode rfl (toNat_encodeXS_row x rfl), fun s => ⟨?_, ?_, ?_⟩⟩
  · exact ⟨_, exec_readDelay x s, reg_setReg_same s x _, setReg_frame s x _⟩
  · exact ⟨_, exec_setDelay x s, State.setDt_dt s _, exec_sameExcept (exec_setDelay x s)⟩
  · exact ⟨_, exec_setSound x s, State.setSt_st s _, exec_sameExcept (exec_setSound x s)⟩

end Sys2Proof.Machine
end

section
/-!
PROOFS. Conditions, timers and the host's operations (60_exceptions.md): what an unknown word does (O12), when the timers count (O16),
which body raises which condition (O19); what the host writes into the latch (O53) and sees of the display (O55), and that none of its
operations breaks the invariant (O56).
-/

namespace Sys2Proof.Machine

-- ==== what each operation that can raise a condition reports (R205 to R208) ====

theorem report_returnToCaller (s : State) :
    s.returnToCaller.report = if s.sp.val = 0 then .stackUnderflow s.pc else s.report := by
  split
  · next h => rw [returnToCaller_empty h, State.raise_report]
  · next h => exact changesOnly_returnToCaller_of_pos (Nat.pos_of_ne_zero h) .report (by simp)

theorem report_callTo (s : State) (a : Word) :
    (s.callTo a).report = if s.sp.val = 16 then .stackOverflow s.pc else s.report := by
  split
  · next h => rw [callTo_full h, State.raise_report]
  · next h => exact changesOnly_callTo_of_lt (by omega) .report (by simp)

/-- An empty range is never refused, whatever `I` is (R42). -/
theorem report_guardRange (s body : State) (len : Nat) :
    (s.guardRange len body).report =
      if 0 < len ∧ 4096 < s.i.toNat + len then .addressOutOfRange (s.i.toNat + len - 1) else body.report := by
  split
  · next h => rw [guardRange_of_gt h.1 h.2, State.raise_report]
  · next h => rw [guardRange_eq, if_pos (by omega)]

/-- The same for a range that is never empty, as those of the stores and the load are. -/
theorem report_guardRange_succ (s body : State) (n : Nat) :
    (s.guardRange (n + 1) body).report =
      if 4096 < s.i.toNat + n + 1 then .addressOutOfRange (s.i.toNat + n) else body.report := by
  simp only [report_guardRange, Nat.succ_pos, true_and, ← Nat.add_assoc, Nat.add_sub_cancel]

/-- A body that skips on the key its register names, and is refused where there is no such key, as both skips on a key are. -/
theorem report_skipOnKey {i : Instr} {x : Reg} {s t : State}
    (hkey : ∀ k : Fin 16, (s.reg x).toNat = k.val → ∃ c, exec i s = .next (s.skipIf c))
    (hrefused : 15 < (s.reg x).toNat → exec i s = .next (s.raise (.keyIndexOutOfRange (s.reg x)))) (h : exec i s = .next t) :
    t.report = if 15 < (s.reg x).toNat then .keyIndexOutOfRange (s.reg x) else s.report := by
  split
  · next hlarge =>
    cases h.symm.trans (hrefused hlarge)
    rw [State.raise_report]
  · next hsmall =>
    obtain ⟨c, hskip⟩ := hkey ⟨(s.reg x).toNat, by omega⟩ rfl
    cases h.symm.trans hskip
    exact report_skipIf s c

-- ==== the host's operations and the invariant (R220) ====

theorem inv_hostInitialize (s : State) : Inv (hostInitialize s) := resetMeetsInvariant

theorem inv_setInput {keys : Vector Nat 16} {s : State} : Inv (setInput keys s) ↔ Inv s := Iff.rfl

/-- A load is accepted exactly when it delivers what it declares and fits (R243 to R245). -/
theorem loadError_eq_none {declared delivered : Nat} : loadError declared delivered = none ↔ declared ≤ 3584 ∧ delivered = declared := by
  by_cases hfits : declared ≤ 3584
  · simp [loadError, hfits, Nat.not_lt.2 hfits]
  · rw [loadError, if_pos (Nat.not_le.1 hfits)]
    split_ifs <;> simp [hfits]

/-- A load writes all its bytes, which then fit, or nothing (R243 to R246). -/
theorem loadProgram_cases (declared : Nat) (bytes : List Byte) (s : State) :
    (bytes.length ≤ 3584 ∧ (loadProgram declared bytes s).2 = s.setMem (s.mem.writeRange 512 bytes)) ∨
    (loadProgram declared bytes s).2 = s := by
  unfold loadProgram
  split
  · exact .inr rfl
  · next hok =>
    obtain ⟨hfits, hall⟩ := loadError_eq_none.1 hok
    exact .inl ⟨by omega, rfl⟩

/-- The 3584 bytes from 512 on are inside memory, so a load keeps its canonical form. -/
theorem inv_loadProgram {s : State} (hi : Inv s) (declared : Nat) (bytes : List Byte) : Inv (loadProgram declared bytes s).2 := by
  obtain ⟨hfits, hload⟩ | hload := loadProgram_cases declared bytes s
  · obtain ⟨hm, hpc, hs⟩ := hi
    rw [hload]
    exact ⟨Memory.wf_writeRange hm (by omega), hpc, hs⟩
  · rwa [hload]

-- ==== the latch and the display view (R216, R217) ====

theorem changesOnly_setInput (keys : Vector Nat 16) (s : State) : ChangesOnly [.keys] s (setInput keys s) := by
  intro f hf
  cases f with
  | keys => simp at hf
  | _ => simp [EqField, setInput]

theorem get_getDisplay (s : State) (c : Fin 2048) : (getDisplay s).get c = flagByte (s.disp.cell c.val) := by
  simp [getDisplay, Vector.get_eq_getElem]

-- ==== the statements ====

/-- Settles O12: the body of an unknown word is its report. -/
theorem unknownWordStep : Obligations.UnknownWordStep := by
  unfold Obligations.UnknownWordStep
  intro s hpc hd
  exact ⟨_, step_of_unknown hpc hd, rfl, toNat_pc_fetched hpc, toNat_tickTimer s.dt, toNat_tickTimer s.st, rfl,
    (changesOnly_fetched_raise_tick s _).sameExcept⟩

/-- Settles O16, by what a step can do: without a fetch no timer moves; after one they count from what the body left in them, which is
what they held before except for the timer that set-delay or set-sound loads. -/
theorem timersCountEveryFetchedStep : Obligations.TimersCountEveryFetchedStep := by
  unfold Obligations.TimersCountEveryFetchedStep
  intro s t h
  obtain ⟨hpc, c, -, rfl⟩ | ⟨hpc, hd, rfl⟩ | ⟨hpc, i, u, hd, hu, rfl⟩ := step_cases h
  · rw [if_neg (by omega), if_neg (by omega)]
    exact ⟨rfl, rfl⟩
  · simp only [if_pos hpc, hd]
    exact ⟨toNat_tickTimer s.dt, toNat_tickTimer s.st⟩
  · simp only [if_pos hpc, hd, State.tick_dt, State.tick_st, toNat_tickTimer]
    cases i with
    | setDelay x | setSound x => cases hu; exact ⟨rfl, rfl⟩
    | _ =>
      have hdt : u.dt = s.dt := exec_changesOnly hu .delay (by simp [mayChange])
      have hst : u.st = s.st := exec_changesOnly hu .sound (by simp [mayChange])
      rw [hdt, hst]
      exact ⟨rfl, rfl⟩

/-- Settles O19: return, call, the guarded ranges and the skips on a key report as tabled, and every other body leaves the report
alone. -/
theorem conditionsAsTabled : Obligations.ConditionsAsTabled := by
  unfold Obligations.ConditionsAsTabled
  intro i s t hclear h
  cases i with
  | ret => cases h; rw [report_returnToCaller, hclear, conditionOf]
  | call nnn => cases h; rw [report_callTo, hclear, conditionOf]
  | drawSprite x y n => cases h; rw [report_guardRange, State.setReg_report, State.setDisp_report, hclear, conditionOf]
  | storeBcd x => cases h; rw [report_guardRange_succ s _ 2, State.setMem_report, hclear, conditionOf]
  | storeRegs x => cases h; rw [regCount, report_guardRange_succ, State.setMem_report, hclear, conditionOf]
  | loadRegs x => cases h; rw [regCount, report_guardRange_succ, State.setRegs_report, hclear, conditionOf]
  | skipIfKey x => rw [report_skipOnKey (fun _ hk => ⟨_, exec_skipIfKey_of_index hk⟩) exec_skipIfKey_refused h, hclear, conditionOf]
  | skipIfNotKey x => rw [report_skipOnKey (fun _ hk => ⟨_, exec_skipIfNotKey_of_index hk⟩) exec_skipIfNotKey_refused h, hclear, conditionOf]
  | _ => exact Eq.trans (exec_changesOnly h .report (by simp [mayChange])) hclear

/-- Settles O56, operation by operation. -/
theorem hostOperationsKeepInvariant : Obligations.HostOperationsKeepInvariant := by
  unfold Obligations.HostOperationsKeepInvariant
  intro op s hi
  cases op with
  | opInitialize | opReset => exact ⟨_, rfl, inv_hostInitialize s⟩
  | opLoad declared bytes => exact ⟨_, rfl, inv_loadProgram hi declared bytes⟩
  | opStep =>
    obtain ⟨t, ht⟩ := stepAlwaysAnswers s
    exact ⟨t, ht, inv_step hi ht⟩
  | opInput keys => exact ⟨_, rfl, inv_setInput.2 hi⟩
  | opDisplay | opSnapshot => exact ⟨s, rfl, hi⟩

/-- Settles O53: all 16 cells are written, and no other part of the state. -/
theorem setInputReplacesTheLatch : Obligations.SetInputReplacesTheLatch := by
  unfold Obligations.SetInputReplacesTheLatch
  intro keys s
  exact ⟨keyDown_setInput keys s, (changesOnly_setInput keys s).sameExcept⟩

/-- Settles O55: the view is a flag byte per cell. -/
theorem displayViewShowsTheCells : Obligations.DisplayViewShowsTheCells := by
  unfold Obligations.DisplayViewShowsTheCells
  intro s
  refine ⟨fun c => ?_, rfl⟩
  rw [get_getDisplay, toNat_flagByte, Bool.toNat, Bool.cond_eq_ite]

end Sys2Proof.Machine
end

section
/-!
PROOFS. Loads and resets (70_reset_and_hazards.md R240 to R246): a load writes its whole image or nothing (O51, O52), and a reset leaves
no trace of the state before it (O54).
-/

namespace Sys2Proof.Machine

-- ==== the errors of a load (R244, R245) ====

/-- A load with an error leaves the machine as it was. -/
theorem loadProgram_of_error {declared : Nat} {bytes : List Byte} {e : LoadResult} (h : loadError declared bytes.length = some e)
    (s : State) : loadProgram declared bytes s = (e, s) := by
  rw [loadProgram, h]

theorem loadError_of_gt {declared : Nat} (h : 3584 < declared) : loadError declared declared = some .capacityExceeded := by
  rw [loadError, if_pos h, if_pos rfl]

theorem loadError_of_ne {declared delivered : Nat} (hfits : declared ≤ 3584) (hne : delivered ≠ declared) :
    loadError declared delivered = some .ioFailure := by
  rw [loadError, if_neg (Nat.not_lt.2 hfits), if_neg hne]

/-- Where both errors apply, the free value `Config.shortReadFirst` tells which is returned. -/
theorem loadError_of_gt_of_ne {declared delivered : Nat} (hlarge : 3584 < declared) (hne : delivered ≠ declared) :
    loadError declared delivered = some (if Config.shortReadFirst declared delivered then .ioFailure else .capacityExceeded) := by
  rw [loadError, if_pos hlarge, if_neg hne, apply_ite some]

-- ==== the statements ====

/-- Settles O51: an image that fits lies inside memory from 512 on, so it is read back there and nowhere else; a longer one is an
error. -/
theorem loadProgramAllOrNothing : Obligations.LoadProgramAllOrNothing := by
  unfold Obligations.LoadProgramAllOrNothing
  intro bytes s hm
  refine ⟨fun hfits => ?_, fun hlarge => loadProgram_of_error (loadError_of_gt hlarge) s⟩
  have hin : 512 + bytes.length ≤ 4096 := by omega
  exact ⟨_, loadProgram_of_le hfits s, fun _ hj => read_writeRange_add hm hin hj, fun _ ha => read_writeRange_outside hm hin ha,
    (changesOnly_setMem s _).sameExcept⟩

/-- Settles O52: a short read is an error at every declared length, and beyond the capacity the free value tells which one. -/
theorem shortReadIsRefused : Obligations.ShortReadIsRefused := by
  unfold Obligations.ShortReadIsRefused
  intro declared bytes s hne
  refine ⟨fun hfits => loadProgram_of_error (loadError_of_ne hfits hne) s, fun hlarge => ?_⟩
  have herr := loadProgram_of_error (loadError_of_gt_of_ne hlarge hne) s
  split at herr
  · exact .inl herr
  · exact .inr herr

/-- Settles O54: `hostInitialize` keeps only the count of random draws, which the snapshot does not show, and `hostReset` is
`hostInitialize`. -/
theorem resetForgetsTheState : Obligations.ResetForgetsTheState := by
  unfold Obligations.ResetForgetsTheState
  have hinit (s : State) : getSnapshot (hostInitialize s) = getSnapshot State.reset := rfl
  exact fun s => ⟨hinit s, hinit s⟩

end Sys2Proof.Machine
end
